-- ==== Sys2Proof/Word.lean ====
section
/-! DEFINITION. The value types of the block: bytes and RomCodes (spec/20_memory.md R40). -/

namespace Sys2Proof

/-- One byte: a command, a checksum, a byte of a RomCode, of `IN` or of `OUT`. -/
abbrev Byte := BitVec 8

/-- A RomCode, "a fixed 8-byte (64-bit) value" (R40): bit `i` of the vector is bit `i` of the code,
that is bit `i mod 8` of byte `i div 8`. -/
abbrev RomCode := BitVec 64

end Sys2Proof
end

