-- ==== Sys2Proof/Config.lean ====
section
/-! DEFINITION. What an implementation fixes, and the free values. -/

namespace Sys2Proof

/-- `CRC_LEN_WIDTH`, the width of CHECKSUM's `length` operand: a named parameter, default 16 (R8, D10). -/
abbrev Config.crcLenWidth : Nat := 16

/-- FREE VALUE (log entry 2): what the unconstrained bus oracle of R63 does with the bus primitive that
is issued when its counter stands at `k`.  `some b`: the primitive returns, and `b` is the answer where
the primitive has one (RESET, READ_BIT).  `none`: the primitive never returns (R62).  No body: nothing
can be proved of its values. -/
opaque Config.busReply : Nat → Option Bool

end Sys2Proof
end

