-- ==== Sys2Proof/Syntax.lean ====
section
/-! DEFINITION. The instructions: one constructor per row of spec/opcode_table.json (37 rows; FORK_NEW has
two rows, R86), with the operands the spec gives each. -/

namespace Sys2Proof

/-- The two failure causes (R160).  The cause is a label of the raising step, stored nowhere (R163). -/
inductive FailCause where
  | noPresence
  | protocolViolation
deriving DecidableEq, Repr

/-- The three whole-value moves of a RomCode, the only ones there are (R143). -/
inductive CopyMove where
  /-- `S.previous_code <- W.code`, at commit (R110). -/
  | codeToPrevious
  /-- `MemWrite(OUT, W.count, 8, W.code)`, at emission (R111). -/
  | codeToOut
  /-- `S.previous_code <- 0`, at INIT (R90). -/
  | zeroToPrevious
deriving DecidableEq, Repr

/-- The operands of RUN (R73): `capacity`, and the host's output buffer `OUT`, an argument and no state of the block (R39), as its entries
stand when the host issues the RUN, entry 0 first. -/
structure RunOperands where
  capacity : BitVec 16
  buffer : List RomCode
deriving DecidableEq, Repr

/-- The formats of R70. -/
inductive Format where
  | op
  | busop
  | pair
  | forksel
  | uop
deriving DecidableEq, Repr

/-- Everything the spec calls an instruction (R2), one constructor per row of the opcode table. -/
inductive Instr where
  -- format OP: host operations (R71)
  | init (command : Byte) (verify : Bool)
  | run (operands : RunOperands)
  | checksum (input : List Byte)
  -- format BUSOP: bus primitives (R52, R81)
  | busReset
  | busWriteCommand (command : Byte)
  | busWriteBit (bit : Bool)
  | busReadBit
  -- format PAIR: classes of a bit round (R75)
  | pairFork
  | pairZero
  | pairOne
  | pairFail
  -- format FORKSEL: arms of fork resolution (R82); the two rows of FORK_NEW
  | forkReplay
  | forkExhausted
  | forkNewBarred
  | forkNewBeyond
  -- format UOP: micro-operations of the sequencer, selected by the phase (R70)
  | statusTest
  | loopTest
  | txBegin
  | txCmd
  | bitRound
  | readPair
  | classify
  | writeBack
  | store
  | advance
  | commit
  | crcFilter
  | emit
  | doneTest
  | saveFork
  | exit
  | raiseFailed (cause : FailCause)
  -- format UOP: accessors and functions (R140 to R143, R151, R152)
  | getBit (v : RomCode) (i : BitVec 6)
  | setBit (v : RomCode) (i : BitVec 6) (b : Bool)
  | copy (move : CopyMove)
  | map (x : Byte)
  | crc8 (input : List Byte)
deriving DecidableEq, Repr

/-- The format of an instruction (the table's `format` column). -/
def Instr.format : Instr → Format
  | .init _ _ => .op
  | .run _ => .op
  | .checksum _ => .op
  | .busReset => .busop
  | .busWriteCommand _ => .busop
  | .busWriteBit _ => .busop
  | .busReadBit => .busop
  | .pairFork => .pair
  | .pairZero => .pair
  | .pairOne => .pair
  | .pairFail => .pair
  | .forkReplay => .forksel
  | .forkExhausted => .forksel
  | .forkNewBarred => .forksel
  | .forkNewBeyond => .forksel
  | .statusTest => .uop
  | .loopTest => .uop
  | .txBegin => .uop
  | .txCmd => .uop
  | .bitRound => .uop
  | .readPair => .uop
  | .classify => .uop
  | .writeBack => .uop
  | .store => .uop
  | .advance => .uop
  | .commit => .uop
  | .crcFilter => .uop
  | .emit => .uop
  | .doneTest => .uop
  | .saveFork => .uop
  | .exit => .uop
  | .raiseFailed _ => .uop
  | .getBit _ _ => .uop
  | .setBit _ _ _ => .uop
  | .copy _ => .uop
  | .map _ => .uop
  | .crc8 _ => .uop

end Sys2Proof
end

