-- ==== Sys2Proof/WellFormed.lean ====
section
/-! DEFINITION. The two checks that the types of `Instr` do not make: a CHECKSUM's byte sequence has a length that its `length` port
can hold (R44, R74), and a RUN's buffer has exactly `capacity` entries (R195). -/

namespace Sys2Proof

/-- `length` is an unsigned integer of `CRC_LEN_WIDTH` bits (R44). -/
def checksumLengthFits (input : List Byte) : Bool :=
  decide (input.length < 2 ^ Config.crcLenWidth)

/-- `OUT` is an array of exactly `capacity` entries (R195). -/
def runBufferFits (operands : RunOperands) : Bool :=
  decide (operands.buffer.length = operands.capacity.toNat)

/-- Well-formed instructions.  All other operands are held by types of exactly the spec's widths. -/
def Instr.wellFormed : Instr → Bool
  | .checksum input => checksumLengthFits input
  | .init _ _ => true
  | .run operands => runBufferFits operands
  | .busReset => true
  | .busWriteCommand _ => true
  | .busWriteBit _ => true
  | .busReadBit => true
  | .pairFork => true
  | .pairZero => true
  | .pairOne => true
  | .pairFail => true
  | .forkReplay => true
  | .forkExhausted => true
  | .forkNewBarred => true
  | .forkNewBeyond => true
  | .statusTest => true
  | .loopTest => true
  | .txBegin => true
  | .txCmd => true
  | .bitRound => true
  | .readPair => true
  | .classify => true
  | .writeBack => true
  | .store => true
  | .advance => true
  | .commit => true
  | .crcFilter => true
  | .emit => true
  | .doneTest => true
  | .saveFork => true
  | .exit => true
  | .raiseFailed _ => true
  | .getBit _ _ => true
  | .setBit _ _ _ => true
  | .copy _ => true
  | .map _ => true
  | .crc8 _ => true

end Sys2Proof
end

