-- ==== Sys2Proof/Decode.lean ====
section
/-! DEFINITION. The selector ports of R70, the decoder from them to instructions (total, rejecting by name), and
the encoder back.  Nothing is packed into an instruction word (R70): a format's selector is a short code on a port of
its own, its operands stand on ports beside it, and the UOP rows have no code (they are selected by the sequencer
phase, Machine/Fetch.lean). -/

namespace Sys2Proof

/-- The host's ports of format OP (R70): the select code and every operand port.  Each operand is used only by
the operation that names it.  `input` is the byte sequence `IN`, byte 0 first; `buffer` is the host's output buffer `OUT` as it stands
when the host hands it over, entry 0 first (R39, R73). -/
structure HostPorts where
  op : BitVec 2
  command : Byte
  verify : Bool
  capacity : BitVec 16
  length : BitVec Config.crcLenWidth
  input : List Byte
  buffer : List RomCode
deriving DecidableEq, Repr

/-- The engine's ports of format BUSOP (R70): the primitive's code and its argument ports. -/
structure BusPorts where
  busOp : BitVec 2
  argByte : Byte
  argBit : Bool
deriving DecidableEq, Repr

/-- What stands on one selector port. -/
inductive Selector where
  | op (ports : HostPorts)
  | bus (ports : BusPorts)
  /-- `{p, n}`, `p` as bit 1 (R75). -/
  | pair (code : BitVec 2)
  /-- `{replay_ok, lt, eq}`, `replay_ok` as bit 2 (R82). -/
  | forksel (code : BitVec 3)
deriving DecidableEq, Repr

/-- The format of a selector. -/
def Selector.format : Selector → Format
  | .op _ => .op
  | .bus _ => .busop
  | .pair _ => .pair
  | .forksel _ => .forksel

/-- Why a selector has no instruction. -/
inductive DecodeError where
  /-- `op = 0b11` is reserved (R71, R80). -/
  | reservedOp
  /-- CHECKSUM with fewer bytes in `IN` than `length` says (log entry 19). -/
  | inputTooShort
  /-- RUN with fewer entries in `OUT` than `capacity` says (R195, log entry 11). -/
  | bufferTooShort
  /-- FORKSEL with `lt = eq = 1`, impossible (R80, R82). -/
  | impossibleForkVector
deriving DecidableEq, Repr

/-- The decoder's answer. -/
inductive Decoded where
  | instr (i : Instr)
  | rejected (e : DecodeError)
deriving DecidableEq, Repr

/-- Format OP (R71 to R74): RUN takes the first `capacity` entries of `OUT`, CHECKSUM the first `length` bytes of `IN`. -/
def decodeOp (h : HostPorts) : Decoded :=
  if h.op = 0b00#2 then .instr (.init h.command h.verify)
  else if h.op = 0b01#2 then
    if h.capacity.toNat ≤ h.buffer.length then .instr (.run ⟨h.capacity, h.buffer.take h.capacity.toNat⟩)
    else .rejected .bufferTooShort
  else if h.op = 0b10#2 then
    if h.length.toNat ≤ h.input.length then .instr (.checksum (h.input.take h.length.toNat))
    else .rejected .inputTooShort
  else .rejected .reservedOp

/-- Format BUSOP (R81). -/
def decodeBus (b : BusPorts) : Instr :=
  if b.busOp = 0b00#2 then .busReset
  else if b.busOp = 0b01#2 then .busWriteCommand b.argByte
  else if b.busOp = 0b10#2 then .busWriteBit b.argBit
  else .busReadBit

/-- Format PAIR (R75). -/
def decodePair (code : BitVec 2) : Instr :=
  if code = 0b00#2 then .pairFork
  else if code = 0b01#2 then .pairZero
  else if code = 0b10#2 then .pairOne
  else .pairFail

/-- Format FORKSEL (R82), row by row: `110`, `x01`, `010`, `x00`; `x11` is impossible. -/
def decodeForksel (code : BitVec 3) : Decoded :=
  if code = 0b110#3 then .instr .forkReplay
  else if code &&& 0b011#3 = 0b001#3 then .instr .forkExhausted
  else if code = 0b010#3 then .instr .forkNewBarred
  else if code &&& 0b011#3 = 0b000#3 then .instr .forkNewBeyond
  else .rejected .impossibleForkVector

/-- The decoder: total on every selector. -/
def decode : Selector → Decoded
  | .op h => decodeOp h
  | .bus b => .instr (decodeBus b)
  | .pair code => .instr (decodePair code)
  | .forksel code => decodeForksel code

/-- Ports of format OP with the select code alone driven and every operand port at 0. -/
def HostPorts.bare (op : BitVec 2) : HostPorts :=
  ⟨op, 0, false, 0, 0, [], []⟩

/-- The encoder: the selector of an instruction, its unused operand ports at 0 and a don't-care selector bit at 0;
`none` for the UOP rows, which have no code (R70). -/
def encode : Instr → Option Selector
  | .init command verify => some (.op { HostPorts.bare 0b00#2 with command := command, verify := verify })
  | .run operands =>
      some (.op { HostPorts.bare 0b01#2 with capacity := operands.capacity, buffer := operands.buffer })
  | .checksum input =>
      some (.op { HostPorts.bare 0b10#2 with length := BitVec.ofNat Config.crcLenWidth input.length, input := input })
  | .busReset => some (.bus ⟨0b00#2, 0, false⟩)
  | .busWriteCommand command => some (.bus ⟨0b01#2, command, false⟩)
  | .busWriteBit bit => some (.bus ⟨0b10#2, 0, bit⟩)
  | .busReadBit => some (.bus ⟨0b11#2, 0, false⟩)
  | .pairFork => some (.pair 0b00#2)
  | .pairZero => some (.pair 0b01#2)
  | .pairOne => some (.pair 0b10#2)
  | .pairFail => some (.pair 0b11#2)
  | .forkReplay => some (.forksel 0b110#3)
  | .forkExhausted => some (.forksel 0b001#3)
  | .forkNewBarred => some (.forksel 0b010#3)
  | .forkNewBeyond => some (.forksel 0b000#3)
  | .statusTest => none
  | .loopTest => none
  | .txBegin => none
  | .txCmd => none
  | .bitRound => none
  | .readPair => none
  | .classify => none
  | .writeBack => none
  | .store => none
  | .advance => none
  | .commit => none
  | .crcFilter => none
  | .emit => none
  | .doneTest => none
  | .saveFork => none
  | .exit => none
  | .raiseFailed _ => none
  | .getBit _ _ => none
  | .setBit _ _ _ => none
  | .copy _ => none
  | .map _ => none
  | .crc8 _ => none

/-- The host's ports that a table word stands for (log entry 12): the OP select code is the word's two lowest bits and
every operand port is 0 (the sequences empty).  A word with a bit set above them is no OP code; it is placed as the reserved code. -/
def portsOfTableWord (nbits w : Nat) : HostPorts :=
  let word := w % 2 ^ nbits
  if word < 4 then HostPorts.bare (BitVec.ofNat 2 word) else HostPorts.bare 0b11#2

/-- The instruction the decoder reads from a table word given on the host's OP port, the one port the block takes
instructions from outside on (log entry 12). -/
def decodeTableWord (nbits w : Nat) : Option Instr :=
  match decode (.op (portsOfTableWord nbits w)) with
  | .instr i => some i
  | .rejected _ => none

end Sys2Proof
end

