-- ==== Sys2Proof/Machine/State.lean ====
section
/-! DEFINITION. The state of the block and of the two agents around it (host, bus environment) as plain data, the faults and
refusals, and the state after power-on.  Section 1 to 4 are the spec's own state (spec/10_state.md), section 5 the bus
environment (spec/20_memory.md R56 to R64), section 6 the host (spec/60_exceptions.md R183), section 7 the whole. -/

namespace Sys2Proof.Machine

/-! ### 1. The SearchState bank `S` -/

/-- The status (R21), three values; the code 3 is never produced and the type excludes it (R80, D4). -/
inductive Status where
  | more
  | done
  | failed
deriving DecidableEq, Repr

/-- Bank `S`, the persistent record of exactly six fields (R10).  `previousForkPosition` is an integer in [0,64]
(R12); the register codes 65 to 127 are never produced and the type excludes them (R80). -/
structure SearchState where
  previousCode : RomCode
  previousForkPosition : Fin 65
  command : Byte
  status : Status
  isFirstTransaction : Bool
  verifyChecksums : Bool
deriving DecidableEq, Repr

/-! ### 2. The working bank `W` -/

/-- Bank `W` (R13), dead outside the operation that uses it. -/
structure Working where
  count : BitVec 16
  i : BitVec 7
  code : RomCode
  lfValid : Bool
  lfPos : BitVec 6
  p : Bool
  n : Bool
  r : Bool
  crc : Byte
  k : BitVec 16
deriving DecidableEq, Repr

/-! ### 3. The sequencer -/

/-- The phases of R30. -/
inductive Phase where
  | IDLE
  | CHECK
  | LOOP
  | TX_RESET
  | TX_CMD
  | RD_P
  | RD_N
  | RESOLVE
  | WR_BIT
  | COMMIT
  | EXIT
deriving DecidableEq, Repr

/-- The place in the micro-sequence: R30's phases, the phases WR_BIT and COMMIT cut into one place per
micro-operation (log entry 1). -/
inductive MicroPc where
  | idle
  | check
  | loop
  | txReset
  | txCmd
  | rdP
  | rdN
  | resolve
  | wrBit
  | wrStore
  | wrAdvance
  | commit
  | commitFilter
  | commitEmit
  | commitDone
  | commitSave
  | exit
deriving DecidableEq, Repr

/-- The phase of R30 that a place belongs to. -/
def MicroPc.phase : MicroPc → Phase
  | .idle => .IDLE
  | .check => .CHECK
  | .loop => .LOOP
  | .txReset => .TX_RESET
  | .txCmd => .TX_CMD
  | .rdP => .RD_P
  | .rdN => .RD_N
  | .resolve => .RESOLVE
  | .wrBit => .WR_BIT
  | .wrStore => .WR_BIT
  | .wrAdvance => .WR_BIT
  | .commit => .COMMIT
  | .commitFilter => .COMMIT
  | .commitEmit => .COMMIT
  | .commitDone => .COMMIT
  | .commitSave => .COMMIT
  | .exit => .EXIT

/-! ### 4. The output buffer -/

/-- The buffer `OUT` as cells (byte address, byte): entry `idx` lies at addresses `8*idx` to `8*idx+7` (R42, R45 with base 0).
Canonical form: addresses strictly rising; an unlisted address is no byte of the buffer (log entry 10). -/
abbrev Memory := List Host.Cell

/-! ### 5. The bus environment -/

/-- One completed bus primitive with its argument and its answer, written `RST->a`, `CMD(c)`, `RD->a`, `WR(b)` (R64). -/
inductive BusEvent where
  | rst (presence : Bool)
  | cmd (command : Byte)
  | rd (level : Bool)
  | wr (bit : Bool)
deriving DecidableEq, Repr

/-- A bus primitive as the engine issues it (R52). -/
inductive BusPrim where
  | reset
  | writeCommand (command : Byte)
  | writeBit (bit : Bool)
  | readBit
deriving DecidableEq, Repr

/-- A device of the reference environment (R56): its RomCode, its flag `selected`, and the commands for which
`participates(device, c)` is false (R58; the default is none, log entry 18). -/
structure RefDevice where
  code : RomCode
  selected : Bool
  ignores : List Byte
deriving DecidableEq, Repr

/-- The reference environment (R56): the devices, the shared position in 0..64, and the half-round marker. -/
structure RefBus where
  devices : List RefDevice
  pos : Nat
  half : Bool
deriving DecidableEq, Repr

/-- The bus environment (log entry 2). -/
inductive BusEnv where
  /-- The unconstrained oracle of R63: the free value `Config.busReply` at a counter that each primitive advances. -/
  | oracle (counter : Nat)
  /-- A list of replies, one consumed per primitive issued, whichever it is (a write ignores the value); when it is
  empty the primitive issued never returns (R62). -/
  | script (replies : List Bool)
  /-- The reference environment of R56 to R61; its primitives always return. -/
  | reference (bus : RefBus)
deriving DecidableEq, Repr

/-! ### 6. The host -/

/-- The names of the fields of `S` (R17). -/
inductive SField where
  | previousCode
  | previousForkPosition
  | command
  | status
  | isFirstTransaction
  | verifyChecksums
deriving DecidableEq, Repr

/-- What a host can do to the block (R183), the forbidden write of R173(d) included. -/
inductive HostAction where
  | operation (ports : HostPorts)
  | readField (field : SField)
  | writeField (field : SField) (value : BitVec 64)
deriving DecidableEq, Repr

/-- What the block last gave back to the host (R183). -/
inductive HostResult where
  /-- Nothing yet: an operation is in progress, or the last one was INIT, which returns no value (R90). -/
  | nothing
  /-- RUN's result (R100). -/
  | count (value : BitVec 16)
  /-- CHECKSUM's result (R153). -/
  | byte (value : Byte)
  /-- A field of `S`, in its register code, zero-extended. -/
  | field (value : BitVec 64)
deriving DecidableEq, Repr

/-! ### 7. The machine -/

/-- The state of the machine. -/
structure State where
  /-- Bank `S` (R10). -/
  S : SearchState
  /-- Bank `W` (R13). -/
  W : Working
  /-- The phase register, refined (R30). -/
  upc : MicroPc
  /-- RUN's operand `capacity`, held on its port while the RUN is in progress (R73, log entry 6). -/
  capacity : BitVec 16
  /-- `ans[0]` of format BUSOP: the answer of the last RESET or READ_BIT (R70). -/
  ans : Bool
  /-- What the block last gave back to the host. -/
  result : HostResult
  /-- RUN's operand `OUT` (R39, R42, R73): the host's buffer, held while the RUN is in progress; after the return, what the RUN left in
  it, for the host to read (R49).  Each RUN brings its own (log entry 10). -/
  out : Memory
  /-- MODEL'S OWN: an INIT has written `S` since power-on (R36, log entry 5). -/
  written : Bool
  /-- MODEL'S OWN: output lines of GETBIT, SETBIT and MAP executed as rows of their own (log entry 8). -/
  fnOut : BitVec 64
  /-- The bus environment, an input held as data (log entry 2). -/
  bus : BusEnv
  /-- The bus event trace of R64, oldest first (log entry 9). -/
  trace : List BusEvent
  /-- A host action presented in this step, whether or not the block is idle (log entry 7). -/
  port : Option HostAction
  /-- The actions of a host that waits for each to return, oldest first (log entry 7). -/
  program : List HostAction
deriving DecidableEq, Repr

/-- Faults.  The block has no trap (93_implementation_defined.md), so there is one, and no state that meets the invariant
`Safety.lean` states reaches it. -/
inductive Fault where
  /-- Raised by EMIT and by COPY to `OUT` when the entry's index is at or beyond `capacity`: the buffer has exactly `capacity`
  entries (R195), so the entry does not exist.  Safe: the model stops where the spec gives no effect. -/
  | outEntryAbsent (index : BitVec 16)
deriving DecidableEq, Repr

/-- Refusals: the uses that R173 says a model must refuse. -/
inductive Refusal where
  /-- Raised by an arm of `exec` for an instruction without a meaning; no arm does.  Safe. -/
  | notModelled (mnemonic : String)
  /-- Raised by the fetch when the host's ports hold no instruction: `op = 0b11` (R173(a)), fewer bytes than `length`
  (log entry 19), or fewer entries than `capacity` (R195, log entry 11).  Safe. -/
  | undecodable (reason : DecodeError)
  /-- Raised by INIT, RUN, CHECKSUM and by a host read of `S` while an operation is in progress (R173(b), R49).  Safe. -/
  | operationInProgress
  /-- Raised by RUN when no INIT has written `S` since power-on (R173(c)).  Safe. -/
  | runBeforeInit
  /-- Raised by the fetch on a host write to a field of `S` (R173(d)).  Safe. -/
  | hostWrite
deriving DecidableEq, Repr

/-- What the fetch of the next step finds. -/
inductive Fetched where
  /-- An instruction, and the state it runs on (a host action that was taken is no longer presented). -/
  | instr (i : Instr) (s : State)
  /-- No instruction in this step: the state after it. -/
  | quiet (s : State)
  | refused (r : Refusal)
deriving DecidableEq, Repr

/-- The machine right after power-on: the phase is IDLE, no bus primitive has been issued, no INIT has written `S`
(R36, R185).  The spec gives the fields of `S` and `W` no value; they hold 0 here (log entry 4, unsafe). -/
def State.reset : State :=
  { S :=
      { previousCode := 0
        previousForkPosition := 0
        command := 0
        status := .more
        isFirstTransaction := false
        verifyChecksums := false }
    W :=
      { count := 0
        i := 0
        code := 0
        lfValid := false
        lfPos := 0
        p := false
        n := false
        r := false
        crc := 0
        k := 0 }
    upc := .idle
    capacity := 0
    ans := false
    result := .nothing
    out := []
    written := false
    fnOut := 0
    bus := .oracle 0
    trace := []
    port := none
    program := [] }

end Sys2Proof.Machine
end

