-- ==== Sys2Proof/Machine/Bus.lean ====
section
/-! DEFINITION. What the bus environment does with a primitive: the free oracle (spec/20_memory.md R62, R63), a script of
replies, and the reference environment (R56 to R61). -/

namespace Sys2Proof.Machine

/-- The codes of format BUSOP by which a trace can be written as numbers (R81). -/
def BusPrim.code : BusPrim → BitVec 2
  | .reset => 0b00#2
  | .writeCommand _ => 0b01#2
  | .writeBit _ => 0b10#2
  | .readBit => 0b11#2

/-- The event of a primitive that returned, `a` its answer (R64). -/
def BusPrim.event : BusPrim → Bool → BusEvent
  | .reset, a => .rst a
  | .writeCommand c, _ => .cmd c
  | .writeBit b, _ => .wr b
  | .readBit, a => .rd a

/-- Whether a primitive has an answer (R52: RESET and READ_BIT). -/
def BusPrim.answers : BusPrim → Bool
  | .reset => true
  | .writeCommand _ => false
  | .writeBit _ => false
  | .readBit => true

/-- Bit `pos` of a device's RomCode. -/
def RefDevice.bitAt (d : RefDevice) (pos : Nat) : Bool := d.code.getLsbD pos

/-- `participates(device, c)` (R58). -/
def RefDevice.participates (d : RefDevice) (c : Byte) : Bool := !d.ignores.contains c

/-- The line as the selected devices leave it when each sends its bit at `pos`, complemented in the second half: a wired
AND, 1 when no device pulls low (R55, R59). -/
def RefBus.line (b : RefBus) : Bool :=
  b.devices.all (fun d => !d.selected || (d.bitAt b.pos != b.half))

/-- The answer of a primitive on the reference environment (R57, R59); a write has none and is given 0. -/
def RefBus.answer (b : RefBus) : BusPrim → Bool
  | .reset => !b.devices.isEmpty
  | .writeCommand _ => false
  | .writeBit _ => false
  | .readBit => if b.pos < 64 then b.line else true

/-- The reference environment after a primitive (R57 to R60).  Beyond position 63 reads and writes leave it as it is (the
engine never issues one there; log entry 18). -/
def RefBus.after (b : RefBus) : BusPrim → RefBus
  | .reset => { devices := b.devices.map (fun d => { d with selected := true }), pos := 0, half := false }
  | .writeCommand c =>
      { b with devices := b.devices.map (fun d => { d with selected := d.selected && d.participates c }) }
  | .readBit => if b.pos < 64 then { b with half := true } else b
  | .writeBit v =>
      if b.pos < 64 then
        { devices := b.devices.map (fun d => { d with selected := d.selected && (d.bitAt b.pos == v) })
          pos := b.pos + 1
          half := false }
      else b

/-- What the environment does with a primitive: its answer and the environment after it, or `none` when the primitive never
returns (R62). -/
def BusEnv.issue : BusEnv → BusPrim → Option (Bool × BusEnv)
  | .oracle k, _ => (Config.busReply k).map (fun a => (a, .oracle (k + 1)))
  | .script [], _ => none
  | .script (a :: replies), _ => some (a, .script replies)
  | .reference b, q => some (b.answer q, .reference (b.after q))

/-- Issue a primitive: when it returns, the event joins the trace and the answer of RESET and READ_BIT stands on `ans`.
`none` when it never returns. -/
def issue (q : BusPrim) (s : State) : Option State :=
  match s.bus.issue q with
  | none => none
  | some (a, bus') =>
    some { s with
      bus := bus'
      trace := s.trace ++ [q.event a]
      ans := if q.answers then a else s.ans }

end Sys2Proof.Machine
end

