-- ==== Sys2Proof/Machine/Operands.lean ====
section
/-! DEFINITION. Operand forms: register slices, extensions and register codes (spec/30_encoding.md R72 to R77, R81). -/

namespace Sys2Proof.Machine

/-- `W.i[5:0]`, the bit index handed to GETBIT, SETBIT and the fork record (R126, R128, R130; log entry 13). -/
def Working.index (w : Working) : BitVec 6 := w.i.extractLsb' 0 6

/-- `zext_7(W.lf_pos)`, as a value of `S.previous_fork_position` (R114). -/
def forkPositionOf (lfPos : BitVec 6) : Fin 65 := ⟨lfPos.toNat, by have := lfPos.isLt; omega⟩

/-- The code of a status (R76). -/
def Status.code : Status → BitVec 2
  | .more => 0b00#2
  | .done => 0b01#2
  | .failed => 0b10#2

/-- The status of a code; the reserved code has none (R76). -/
def Status.ofCode (c : BitVec 2) : Option Status :=
  if c = 0b00#2 then some .more
  else if c = 0b01#2 then some .done
  else if c = 0b10#2 then some .failed
  else none

/-- The 7-bit register code of a fork position (R77); 64 is the sentinel. -/
def forkPositionCode (p : Fin 65) : BitVec 7 := BitVec.ofNat 7 p.val

/-- A field of `S` as the host reads it: its register code, zero-extended (R17; log entry 21). -/
def SearchState.readField (S : SearchState) : SField → BitVec 64
  | .previousCode => S.previousCode
  | .previousForkPosition => (forkPositionCode S.previousForkPosition).zeroExtend 64
  | .command => S.command.zeroExtend 64
  | .status => S.status.code.zeroExtend 64
  | .isFirstTransaction => (BitVec.ofBool S.isFirstTransaction).zeroExtend 64
  | .verifyChecksums => (BitVec.ofBool S.verifyChecksums).zeroExtend 64

end Sys2Proof.Machine
end

