-- ==== Sys2Proof/Machine/Flags.lean ====
section
/-! DEFINITION. The single-bit conditions of the block and the two internal selections made from them
(spec/10_state.md R24, R25; spec/30_encoding.md R75, R82).  There are no arithmetic condition codes (R25). -/

namespace Sys2Proof.Machine

/-- `replay_ok = (W.count > 0) || !S.is_first_transaction` (R82).  `W.count` counts emissions, not transactions (R126). -/
def replayOk (s : State) : Bool := decide (0 < s.W.count.toNat) || !s.S.isFirstTransaction

/-- `lt = (W.i < S.previous_fork_position)`, unsigned (R82, R77). -/
def forkLt (s : State) : Bool := decide (s.W.i.toNat < s.S.previousForkPosition.val)

/-- `eq = (W.i == S.previous_fork_position)` (R82, R77). -/
def forkEq (s : State) : Bool := decide (s.W.i.toNat = s.S.previousForkPosition.val)

/-- The FORKSEL selector `{replay_ok, lt, eq}` (R82). -/
def forkselCode (s : State) : BitVec 3 :=
  BitVec.ofBool (replayOk s) ++ BitVec.ofBool (forkLt s) ++ BitVec.ofBool (forkEq s)

/-- The PAIR selector `{p, n}` (R75). -/
def pairCode (s : State) : BitVec 2 := BitVec.ofBool s.W.p ++ BitVec.ofBool s.W.n

/-- The four classes of a pair (R75). -/
inductive PairClass where
  | fork
  | zero
  | one
  | fail
deriving DecidableEq, Repr

/-- The class is a function of `{W.p, W.n}` alone (R122). -/
def pairClass (p n : Bool) : PairClass :=
  match p, n with
  | false, false => .fork
  | false, true => .zero
  | true, false => .one
  | true, true => .fail

/-- The arms of fork resolution; NEW is cut into its two rows (R82). -/
inductive ForkArm where
  | replay
  | exhausted
  | newBarred
  | newBeyond
deriving DecidableEq, Repr

/-- The arm, tested in the order of R125: REPLAY, else EXHAUSTED, else NEW (its row `010` when `lt` holds). -/
def forkArm (s : State) : ForkArm :=
  if replayOk s && forkLt s then .replay
  else if forkEq s then .exhausted
  else if forkLt s then .newBarred
  else .newBeyond

end Sys2Proof.Machine
end

