-- ==== Sys2Proof/Machine/Memory.lean ====
section
/-! DEFINITION. The memory operations of `OUT` (spec/20_memory.md R42, R43, R45). -/

namespace Sys2Proof.Machine

/-- The canonical form: addresses strictly rising.  An unlisted address has no value, so no entry equals what one reads as. -/
abbrev Memory.wf (m : Memory) : Prop := m.Pairwise (fun c d => c.1 < d.1)

/-- The byte at an address; `none` where the buffer has no byte (log entry 10). -/
def Memory.read : Memory → Nat → Option Byte
  | [], _ => none
  | c :: m, a => if c.1 = a then some c.2 else Memory.read m a

/-- Write one byte, keeping the canonical form. -/
def Memory.write : Memory → Nat → Byte → Memory
  | [], a, b => [(a, b)]
  | c :: m, a, b =>
    if a < c.1 then (a, b) :: c :: m
    else if a = c.1 then (a, b) :: m
    else c :: Memory.write m a b

/-- Write consecutive bytes, the first at address `a`. -/
def Memory.writeBytes : Memory → Nat → List Byte → Memory
  | m, _, [] => m
  | m, a, b :: bs => Memory.writeBytes (m.write a b) (a + 1) bs

/-- Byte `k` of a RomCode, `v[8k+7:8k]` (R40, R143). -/
def romByte (v : RomCode) (k : Nat) : Byte := v.extractLsb' (8 * k) 8

/-- The eight bytes of a RomCode, byte 0 first (R40). -/
def romBytes (v : RomCode) : List Byte :=
  [romByte v 0, romByte v 1, romByte v 2, romByte v 3, romByte v 4, romByte v 5, romByte v 6, romByte v 7]

/-- The lowest byte address of entry `idx` (R45, base 0). -/
def entryAddress (idx : BitVec 16) : Nat := 8 * idx.toNat

/-- `MemWrite(OUT, idx, 8, v)`: the whole entry, byte 0 of `v` at the lowest address (R42). -/
def Memory.writeEntry (m : Memory) (idx : BitVec 16) (v : RomCode) : Memory :=
  m.writeBytes (entryAddress idx) (romBytes v)

/-- The cells of consecutive bytes, the first at address `a`. -/
def Memory.ofBytes : Nat → List Byte → Memory
  | _, [] => []
  | a, b :: bs => (a, b) :: Memory.ofBytes (a + 1) bs

/-- The buffer a host hands over (R73, R187): entry `j` at `entryAddress j`, byte 0 lowest (R42, R45), and no other byte (R195). -/
def Memory.ofEntries (buffer : List RomCode) : Memory := Memory.ofBytes 0 (buffer.flatMap romBytes)

/-- The addresses a buffer has bytes at, rising. -/
def Memory.addresses (m : Memory) : List Nat := m.map (·.1)

/-- The bytes of entry `idx` as the host reads them after RUN returned, byte 0 first. -/
def Memory.entryBytes (m : Memory) (idx : BitVec 16) : List (Option Byte) :=
  [m.read (entryAddress idx), m.read (entryAddress idx + 1), m.read (entryAddress idx + 2),
    m.read (entryAddress idx + 3), m.read (entryAddress idx + 4), m.read (entryAddress idx + 5),
    m.read (entryAddress idx + 6), m.read (entryAddress idx + 7)]

end Sys2Proof.Machine
end

