-- ==== Sys2Proof/Machine/Ops.lean ====
section
/-! DEFINITION. The named operations over the registers that the meanings share: going to a phase, writing a bank, giving a
result back, the failure entry (spec/60_exceptions.md R164) and the exit of RUN (spec/41_run.md R115), and the guard of a host
operation (R173). -/

namespace Sys2Proof.Machine

/-- `phase <- X` (R30). -/
def State.goto (s : State) (u : MicroPc) : State := { s with upc := u }

/-- Write bank `S`. -/
def State.setS (s : State) (S : SearchState) : State := { s with S := S }

/-- Write bank `W`. -/
def State.setW (s : State) (W : Working) : State := { s with W := W }

/-- Give a result back to the host. -/
def State.giveBack (s : State) (r : HostResult) : State := { s with result := r }

/-- `raise Failed(cause)` (R164): `S.status <- Failed`, and on to the exit; nothing else changes.  The cause is a label of the
step and is stored nowhere (R163). -/
def raiseFailedOp (_cause : FailCause) (s : State) : State :=
  (s.setS { s.S with status := .failed }).goto .exit

/-- The one exit of a RUN that passed the status test (R115): the way back from a failure too. -/
def exitOp (s : State) : State :=
  ((s.setS { s.S with isFirstTransaction := false }).giveBack (.count s.W.count)).goto .idle

/-- `W.lf_valid <- 1 ; W.lf_pos <- W.i[5:0]` (R126, R128). -/
def Working.recordFork (w : Working) : Working := { w with lfValid := true, lfPos := w.index }

/-- A host operation needs an idle block (R173(b), R190). -/
def whenIdle (s : State) (k : Host.Outcome State Fault Refusal) : Host.Outcome State Fault Refusal :=
  if s.upc = .idle then k else .refused .operationInProgress

/-- `MemWrite(OUT, W.count, 8, W.code)` (R111), for an entry below `capacity`; the buffer has no other (R195). -/
def writeOut (s : State) : Host.Outcome State Fault Refusal :=
  if s.W.count < s.capacity then .next { s with out := s.out.writeEntry s.W.count s.W.code }
  else .fault (.outEntryAbsent s.W.count)

end Sys2Proof.Machine
end

