-- ==== Sys2Proof/Machine/RomCode.lean ====
section
/-! DEFINITION. The romcode accumulator's accessors GETBIT, SETBIT and COPY (spec/43_romcode.md R140 to R143). -/

namespace Sys2Proof.Machine

/-- `GETBIT(v, i) = v[i]` (R140). -/
def romGetBit (v : RomCode) (i : BitVec 6) : Bool := v.getLsbD i.toNat

/-- `SETBIT(v, i, b)`: bit `i` becomes `b`, every other bit stays (R141). -/
def romSetBit (v : RomCode) (i : BitVec 6) (b : Bool) : RomCode :=
  if b then v ||| ((1 : RomCode) <<< i.toNat) else v &&& ~~~((1 : RomCode) <<< i.toNat)

/-- GETBIT as a row of its own: its output stands on `fnOut`, zero-extended (log entry 8). -/
def execGetBit (v : RomCode) (i : BitVec 6) (s : State) : Host.Outcome State Fault Refusal :=
  .next { s with fnOut := (BitVec.ofBool (romGetBit v i)).zeroExtend 64 }

/-- SETBIT as a row of its own: its output stands on `fnOut` (log entry 8). -/
def execSetBit (v : RomCode) (i : BitVec 6) (b : Bool) (s : State) : Host.Outcome State Fault Refusal :=
  .next { s with fnOut := romSetBit v i b }

/-- `S.previous_code <- v`, all 64 bits (R110, R143). -/
def copyToPrevious (v : RomCode) (s : State) : State := s.setS { s.S with previousCode := v }

/-- COPY: the three whole-RomCode moves (R143). -/
def execCopy (move : CopyMove) (s : State) : Host.Outcome State Fault Refusal :=
  match move with
  | .codeToPrevious => .next (copyToPrevious s.W.code s)
  | .codeToOut => writeOut s
  | .zeroToPrevious => .next (copyToPrevious 0 s)

end Sys2Proof.Machine
end

