-- ==== Sys2Proof/Machine/BitRound.lean ====
section
/-! DEFINITION. The bit round: pair read, classification, fork resolution, write-back, store, advance (spec/42_bit_round.md R120 to
R131). -/

namespace Sys2Proof.Machine

/-! ### Fork resolution (format FORKSEL) -/

/-- The arm has set `W.r` and the fork record: on to the write-back. -/
def resolved (s : State) (w : Working) : State := (s.setW w).goto .wrBit

/-- REPLAY (R126): the bit of `S.previous_code` at `W.i`; a 0 is recorded, a 1 leaves the record as it is. -/
def forkReplayOp (s : State) : State :=
  if romGetBit s.S.previousCode s.W.index then resolved s { s.W with r := true }
  else resolved s { s.W with r := false }.recordFork

/-- EXHAUSTED (R127): 1, no record. -/
def forkExhaustedOp (s : State) : State := resolved s { s.W with r := true }

/-- NEW (R128): 0, recorded at `W.i`. -/
def forkNewOp (s : State) : State := resolved s { s.W with r := false }.recordFork

/-- FORK_REPLAY (R126). -/
def execForkReplay (s : State) : Host.Outcome State Fault Refusal := .next (forkReplayOp s)

/-- FORK_EXHAUSTED (R127). -/
def execForkExhausted (s : State) : Host.Outcome State Fault Refusal := .next (forkExhaustedOp s)

/-- FORK_NEW, row `010` (R128): below the previous fork position with REPLAY barred. -/
def execForkNewBarred (s : State) : Host.Outcome State Fault Refusal := .next (forkNewOp s)

/-- FORK_NEW, row `x00` (R128): beyond the previous fork position. -/
def execForkNewBeyond (s : State) : Host.Outcome State Fault Refusal := .next (forkNewOp s)

/-! ### Classification (format PAIR) -/

/-- FORK (R125): exactly one arm, chosen by FORKSEL. -/
def pairForkOp (s : State) : State :=
  match forkArm s with
  | .replay => forkReplayOp s
  | .exhausted => forkExhaustedOp s
  | .newBarred => forkNewOp s
  | .newBeyond => forkNewOp s

/-- ZERO and ONE (R123): the agreed bit is adopted, no history consulted, no fork recorded.  The bit is the table's "resolved bit" of
the row (R75), which is `W.p` for the pair that selects the row (DEDUCED, log entry 23: the constant, also on another pair). -/
def adopt (bit : Bool) (s : State) : State := resolved s { s.W with r := bit }

/-- PAIR_FORK (R125). -/
def execPairFork (s : State) : Host.Outcome State Fault Refusal := .next (pairForkOp s)

/-- PAIR_ZERO (R123, R75). -/
def execPairZero (s : State) : Host.Outcome State Fault Refusal := .next (adopt false s)

/-- PAIR_ONE (R123, R75). -/
def execPairOne (s : State) : Host.Outcome State Fault Refusal := .next (adopt true s)

/-- PAIR_FAIL (R124). -/
def execPairFail (s : State) : Host.Outcome State Fault Refusal := .next (raiseFailedOp .protocolViolation s)

/-! ### The micro-operations of the round -/

/-- The second read: its answer is `W.n` (R121). -/
def readSecond (s : State) : State :=
  match issue .readBit s with
  | none => s.goto .rdN
  | some s' => (s'.setW { s'.W with n := s'.ans }).goto .resolve

/-- READ_PAIR (R121): two reads, the first answer `W.p`, the second `W.n`.  In phase RD_N, where a second read that has not returned
leaves the engine, the first read is already made (log entry 16). -/
def readPairOp (s : State) : State :=
  if s.upc = .rdN then readSecond s
  else
    match issue .readBit s with
    | none => s.goto .rdP
    | some s' => readSecond (s'.setW { s'.W with p := s'.ans })

/-- CLASSIFY (R122): the row of format PAIR that `{W.p, W.n}` selects. -/
def classifyOp (s : State) : State :=
  match pairClass s.W.p s.W.n with
  | .fork => pairForkOp s
  | .zero => adopt false s
  | .one => adopt true s
  | .fail => raiseFailedOp .protocolViolation s

/-- WRITE_BACK (R129): `BusWriteBit(W.r)`. -/
def writeBackOp (s : State) : State :=
  match issue (.writeBit s.W.r) s with
  | none => s.goto .wrBit
  | some s' => s'.goto .wrStore

/-- STORE (R130): `W.code <- SETBIT(W.code, W.i, W.r)`. -/
def storeOp (s : State) : State :=
  (s.setW { s.W with code := romSetBit s.W.code s.W.index s.W.r }).goto .wrAdvance

/-- ADVANCE (R131): `W.i <- W.i + 1`; the next round, or the commit when `W.i = 64`. -/
def advanceOp (s : State) : State :=
  (s.setW { s.W with i := s.W.i + 1 }).goto (if s.W.i + 1 = 64 then .commit else .rdP)

/-- Run an operation when the sequencer stands at its place, else leave the state alone. -/
def whenAt (u : MicroPc) (f : State → State) (s : State) : State := if s.upc = u then f s else s

/-- BIT_ROUND (R120): READ_PAIR, CLASSIFY, write-back, store, advance.  A failed pair leaves it at EXIT, a primitive that never returns at
the phase that issued it; from a place inside a round it goes on from there (log entry 16). -/
def bitRoundOp (s : State) : State :=
  let s0 := if s.upc.phase = .RD_N ∨ s.upc.phase = .RESOLVE ∨ s.upc.phase = .WR_BIT then s else s.goto .rdP
  let s1 := if s0.upc = .rdP ∨ s0.upc = .rdN then readPairOp s0 else s0
  whenAt .wrAdvance advanceOp (whenAt .wrStore storeOp (whenAt .wrBit writeBackOp (whenAt .resolve classifyOp s1)))

/-- BIT_ROUND. -/
def execBitRound (s : State) : Host.Outcome State Fault Refusal := .next (bitRoundOp s)

/-- READ_PAIR. -/
def execReadPair (s : State) : Host.Outcome State Fault Refusal := .next (readPairOp s)

/-- CLASSIFY. -/
def execClassify (s : State) : Host.Outcome State Fault Refusal := .next (classifyOp s)

/-- WRITE_BACK. -/
def execWriteBack (s : State) : Host.Outcome State Fault Refusal := .next (writeBackOp s)

/-- STORE. -/
def execStore (s : State) : Host.Outcome State Fault Refusal := .next (storeOp s)

/-- ADVANCE. -/
def execAdvance (s : State) : Host.Outcome State Fault Refusal := .next (advanceOp s)

end Sys2Proof.Machine
end

