-- ==== Sys2Proof/Machine/BusPrimitives.lean ====
section
/-! DEFINITION. Format BUSOP: the four bus primitives (spec/20_memory.md R52 to R55, R62).  A primitive that never returns leaves
the state as it is: the engine is stuck in the phase that issued it (log entry 3). -/

namespace Sys2Proof.Machine

/-- A primitive by itself: the state once it returned, the same state while it has not. -/
def primitive (q : BusPrim) (s : State) : State := (issue q s).getD s

/-- BUS_RESET (R53). -/
def execBusReset (s : State) : Host.Outcome State Fault Refusal := .next (primitive .reset s)

/-- BUS_WRITE_COMMAND (R54): one primitive for the whole byte. -/
def execBusWriteCommand (command : Byte) (s : State) : Host.Outcome State Fault Refusal :=
  .next (primitive (.writeCommand command) s)

/-- BUS_WRITE_BIT (R55). -/
def execBusWriteBit (bit : Bool) (s : State) : Host.Outcome State Fault Refusal :=
  .next (primitive (.writeBit bit) s)

/-- BUS_READ_BIT (R55). -/
def execBusReadBit (s : State) : Host.Outcome State Fault Refusal := .next (primitive .readBit s)

end Sys2Proof.Machine
end

