-- ==== Sys2Proof/Machine/Checksum.lean ====
section
/-! DEFINITION. The checksum generator: MAP, CRC8 and the host operation CHECKSUM (spec/44_checksum.md R150 to R154). -/

namespace Sys2Proof.Machine

/-- The eight constants `K[0..7]` (R7, R151). -/
def crcK : Nat → Byte
  | 0 => 0x5E
  | 1 => 0xBC
  | 2 => 0x61
  | 3 => 0xC2
  | 4 => 0x9D
  | 5 => 0x23
  | 6 => 0x46
  | 7 => 0x8C
  | _ => 0x00

/-- `MAP(x)`: from 0, XOR in `K[k]` for every set bit `k` of `x` (R151, D11). -/
def crcMap (x : Byte) : Byte :=
  (List.range 8).foldl (fun y k => if x.getLsbD k then y ^^^ crcK k else y) 0x00

/-- The accumulation from an accumulator value, one MAP step per byte, in order (R152). -/
def crcFold : Byte → List Byte → Byte
  | acc, [] => acc
  | acc, b :: bs => crcFold (crcMap (acc ^^^ b)) bs

/-- `CRC8(seq)`: the accumulation from 0 (R152). -/
def crc8 (input : List Byte) : Byte := crcFold 0x00 input

/-- Run one checksum computation in `W.crc` and `W.k`, the only registers it uses (R152, R28); `W.k` is left at the number of
bytes taken (log entry 14). -/
def crcCompute (input : List Byte) (s : State) : State :=
  s.setW { s.W with crc := crc8 input, k := BitVec.ofNat 16 input.length }

/-- MAP as a row of its own: its output stands on `fnOut`, zero-extended (log entry 8). -/
def execMap (x : Byte) (s : State) : Host.Outcome State Fault Refusal :=
  .next { s with fnOut := (crcMap x).zeroExtend 64 }

/-- CRC8 as a row of its own: its result stands in `W.crc`. -/
def execCrc8 (input : List Byte) (s : State) : Host.Outcome State Fault Refusal :=
  .next (crcCompute input s)

/-- CHECKSUM (R153): may be issued whenever the block is idle, before INIT too; reads and writes no field of `S`. -/
def execChecksum (input : List Byte) (s : State) : Host.Outcome State Fault Refusal :=
  whenIdle s (.next ((crcCompute input s).giveBack (.byte (crc8 input))))

end Sys2Proof.Machine
end

