-- ==== Sys2Proof/Machine/Search.lean ====
section
/-! DEFINITION. The host operations INIT and RUN, and the micro-operations that frame a transaction (spec/40_init.md R90 to R93,
spec/41_run.md R100 to R115, spec/60_exceptions.md R164). -/

namespace Sys2Proof.Machine

/-- The content of `S` after INIT (R35, R90): all six fields, whatever stood there. -/
def SearchState.initial (command : Byte) (verify : Bool) : SearchState :=
  { previousCode := 0
    previousForkPosition := 64
    command := command
    status := .more
    isFirstTransaction := true
    verifyChecksums := verify }

/-- INIT (R90): the architectural reset of `S`; no bus activity, no `W` register, no value returned. -/
def execInit (command : Byte) (verify : Bool) (s : State) : Host.Outcome State Fault Refusal :=
  whenIdle s (.next { (s.setS (SearchState.initial command verify)).giveBack .nothing with written := true })

/-- RUN (R100) is accepted when the block is idle and `S` has been written since power-on (R173(b), (c)): its operands, `capacity` and the
host's buffer `OUT` (R39, R73), are held and the sequencer goes to CHECK (R30); the micro-operations of R116's listing follow, one a
step. -/
def execRun (operands : RunOperands) (s : State) : Host.Outcome State Fault Refusal :=
  whenIdle s
    (if s.written then .next { (s.giveBack .nothing).goto .check with
        capacity := operands.capacity, out := Memory.ofEntries operands.buffer }
     else .refused .runBeforeInit)

/-- STATUS_TEST (R101, R102): not More returns 0 with no state change; else `W.count <- 0` and on to the loop. -/
def execStatusTest (s : State) : Host.Outcome State Fault Refusal :=
  .next (if s.S.status = .more then (s.setW { s.W with count := 0 }).goto .loop
         else (s.giveBack (.count 0)).goto .idle)

/-- LOOP_TEST (R102): a transaction is begun only while `W.count < capacity`. -/
def execLoopTest (s : State) : Host.Outcome State Fault Refusal :=
  .next (if s.W.count < s.capacity then s.goto .txReset else s.goto .exit)

/-- TX_BEGIN (R103, R104): clear `W.i`, `W.code`, `W.lf_valid`, then `BusReset()`; no presence raises Failed(NoPresence). -/
def txBeginOp (s : State) : State :=
  let cleared := s.setW { s.W with i := 0, code := 0, lfValid := false }
  match issue .reset cleared with
  | none => cleared.goto .txReset
  | some s' => if s'.ans then s'.goto .txCmd else raiseFailedOp .noPresence s'

/-- TX_BEGIN. -/
def execTxBegin (s : State) : Host.Outcome State Fault Refusal := .next (txBeginOp s)

/-- TX_CMD (R105): `BusWriteCommand(S.command)`. -/
def execTxCmd (s : State) : Host.Outcome State Fault Refusal :=
  .next (match issue (.writeCommand s.S.command) s with
    | none => s.goto .txCmd
    | some s' => s'.goto .rdP)

/-- COMMIT, part 1 (R110): `S.previous_code <- W.code`, always, before the filter. -/
def execCommit (s : State) : Host.Outcome State Fault Refusal :=
  .next ((copyToPrevious s.W.code s).goto .commitFilter)

/-- CRC_FILTER (R112, R154): passes when `S.verify_checksums = 0` or the checksum of all 8 bytes, byte 0 first, is 0.  A discard
goes on to the Done test without emitting.  DESIGN CHOICE (log entry 22): without verification no checksum is computed, so `W.crc` and `W.k`
stay as they are; R154 calls the difference unobservable. -/
def execCrcFilter (s : State) : Host.Outcome State Fault Refusal :=
  .next (if s.S.verifyChecksums then
      (crcCompute (romBytes s.W.code) s).goto
        (if crc8 (romBytes s.W.code) = 0 then .commitEmit else .commitDone)
    else s.goto .commitEmit)

/-- EMIT (R111): `MemWrite(OUT, W.count, 8, W.code)`; `W.count <- W.count + 1`. -/
def execEmit (s : State) : Host.Outcome State Fault Refusal :=
  match writeOut s with
  | .next s' => .next ((s'.setW { s'.W with count := s'.W.count + 1 }).goto .commitDone)
  | .fault f => .fault f
  | .refused r => .refused r

/-- DONE_TEST (R113): no fork recorded sets Done and ends the RUN, `S.previous_fork_position` not written. -/
def execDoneTest (s : State) : Host.Outcome State Fault Refusal :=
  .next (if s.W.lfValid then s.goto .commitSave
         else (s.setS { s.S with status := .done }).goto .exit)

/-- SAVE_FORK (R114): `S.previous_fork_position <- zext_7(W.lf_pos)`, and back to the loop test. -/
def execSaveFork (s : State) : Host.Outcome State Fault Refusal :=
  .next ((s.setS { s.S with previousForkPosition := forkPositionOf s.W.lfPos }).goto .loop)

/-- EXIT (R115). -/
def execExit (s : State) : Host.Outcome State Fault Refusal := .next (exitOp s)

/-- RAISE_FAILED (R164). -/
def execRaiseFailed (cause : FailCause) (s : State) : Host.Outcome State Fault Refusal :=
  .next (raiseFailedOp cause s)

end Sys2Proof.Machine
end

