-- ==== Sys2Proof/Machine/Dispatch.lean ====
section
/-! DEFINITION. The dispatch: one arm per constructor of `Instr`. -/

namespace Sys2Proof.Machine

/-- The meaning of an instruction. -/
def exec (i : Instr) (s : State) : Host.Outcome State Fault Refusal :=
  match i with
  -- format OP
  | .init command verify => Sys2Proof.Machine.execInit command verify s
  | .run operands => Sys2Proof.Machine.execRun operands s
  | .checksum input => Sys2Proof.Machine.execChecksum input s
  -- format BUSOP
  | .busReset => Sys2Proof.Machine.execBusReset s
  | .busWriteCommand command => Sys2Proof.Machine.execBusWriteCommand command s
  | .busWriteBit bit => Sys2Proof.Machine.execBusWriteBit bit s
  | .busReadBit => Sys2Proof.Machine.execBusReadBit s
  -- format PAIR
  | .pairFork => Sys2Proof.Machine.execPairFork s
  | .pairZero => Sys2Proof.Machine.execPairZero s
  | .pairOne => Sys2Proof.Machine.execPairOne s
  | .pairFail => Sys2Proof.Machine.execPairFail s
  -- format FORKSEL
  | .forkReplay => Sys2Proof.Machine.execForkReplay s
  | .forkExhausted => Sys2Proof.Machine.execForkExhausted s
  | .forkNewBarred => Sys2Proof.Machine.execForkNewBarred s
  | .forkNewBeyond => Sys2Proof.Machine.execForkNewBeyond s
  -- format UOP: the sequencer
  | .statusTest => Sys2Proof.Machine.execStatusTest s
  | .loopTest => Sys2Proof.Machine.execLoopTest s
  | .txBegin => Sys2Proof.Machine.execTxBegin s
  | .txCmd => Sys2Proof.Machine.execTxCmd s
  | .bitRound => Sys2Proof.Machine.execBitRound s
  | .readPair => Sys2Proof.Machine.execReadPair s
  | .classify => Sys2Proof.Machine.execClassify s
  | .writeBack => Sys2Proof.Machine.execWriteBack s
  | .store => Sys2Proof.Machine.execStore s
  | .advance => Sys2Proof.Machine.execAdvance s
  | .commit => Sys2Proof.Machine.execCommit s
  | .crcFilter => Sys2Proof.Machine.execCrcFilter s
  | .emit => Sys2Proof.Machine.execEmit s
  | .doneTest => Sys2Proof.Machine.execDoneTest s
  | .saveFork => Sys2Proof.Machine.execSaveFork s
  | .exit => Sys2Proof.Machine.execExit s
  | .raiseFailed cause => Sys2Proof.Machine.execRaiseFailed cause s
  -- format UOP: accessors and functions
  | .getBit v idx => Sys2Proof.Machine.execGetBit v idx s
  | .setBit v idx b => Sys2Proof.Machine.execSetBit v idx b s
  | .copy move => Sys2Proof.Machine.execCopy move s
  | .map x => Sys2Proof.Machine.execMap x s
  | .crc8 input => Sys2Proof.Machine.execCrc8 input s

end Sys2Proof.Machine
end

