-- ==== Sys2Proof/Machine/Fetch.lean ====
section
/-! DEFINITION. What the next step runs: a host action that is presented, or the micro-operation that the phase selects
(spec/10_state.md R30; spec/60_exceptions.md R173, R183), and where a word given from outside is placed. -/

namespace Sys2Proof.Machine

/-- The micro-operation a place of the sequencer selects (the phase column of the opcode table); none at IDLE. -/
def MicroPc.uop : MicroPc → Option Instr
  | .idle => none
  | .check => some .statusTest
  | .loop => some .loopTest
  | .txReset => some .txBegin
  | .txCmd => some .txCmd
  | .rdP => some .readPair
  | .rdN => some .readPair
  | .resolve => some .classify
  | .wrBit => some .writeBack
  | .wrStore => some .store
  | .wrAdvance => some .advance
  | .commit => some .commit
  | .commitFilter => some .crcFilter
  | .commitEmit => some .emit
  | .commitDone => some .doneTest
  | .commitSave => some .saveFork
  | .exit => some .exit

/-- A host action presented to the block in state `s`, which no longer presents it (R17, R173, R183). -/
def accept (a : HostAction) (s : State) : Fetched :=
  match a with
  | .operation ports =>
    match decode (.op ports) with
    | .instr i => .instr i s
    | .rejected e => .refused (.undecodable e)
  | .readField f =>
    if s.upc = .idle then .quiet (s.giveBack (.field (s.S.readField f))) else .refused .operationInProgress
  | .writeField _ _ => .refused .hostWrite

/-- The fetch: an action on the port first; else the phase's micro-operation; at IDLE the next action of the waiting host, or
nothing (log entry 7). -/
def fetch (s : State) : Fetched :=
  match s.port with
  | some a => accept a { s with port := none }
  | none =>
    match s.upc.uop with
    | some i => .instr i s
    | none =>
      match s.program with
      | [] => .quiet s
      | a :: rest => accept a { s with program := rest }

/-- Present a host operation to an idle block, so that the next step runs it. -/
def State.present (s : State) (ports : HostPorts) : State :=
  { s with upc := .idle, port := some (.operation ports) }

end Sys2Proof.Machine
end

