-- ==== Sys2Proof/Machine/Step.lean ====
section
/-! DEFINITION. One step of the machine. -/

namespace Sys2Proof.Machine

/-- One step: run what the fetch finds. -/
def step (s : State) : Host.Outcome State Fault Refusal :=
  match fetch s with
  | .instr i s' => exec i s'
  | .quiet s' => .next s'
  | .refused r => .refused r

/-- `s` with a table word presented on the host's OP port, where the next step takes its instruction (log entry 12). -/
def State.withFetchWord (s : State) (nbits w : Nat) : State := s.present (portsOfTableWord nbits w)

end Sys2Proof.Machine
end

