-- ==== Sys2Proof/Safety.lean ====
section
/-! DEFINITION. What claims about the block are stated in: the invariant of the machine (section 1), the live part of bank `W`
(section 2), the listing of RUN as structured control flow (section 3, spec/41_run.md R116), the bit-lexicographic order and the
search of a fixed device set (section 4, R117, R118, spec/20_memory.md R61), the bit-serial checksum (section 5, R157), and the
host's enumeration (section 6, spec/30_encoding.md R84). -/

namespace Sys2Proof.Machine

/-! ### 0. Several steps -/

/-- `k` steps, stopping at the first fault or refusal (`Host.Core.run` on this machine). -/
def runSteps : Nat → State → Host.Outcome State Fault Refusal
  | 0, s => .next s
  | k + 1, s =>
    match step s with
    | .next s' => runSteps k s'
    | .fault r => .fault r
    | .refused r => .refused r

/-! ### 1. The invariant -/

/-- Places of a RUN that passed the status test and has not ended the search. -/
def MicroPc.searching : MicroPc → Bool
  | .idle => false
  | .check => false
  | .exit => false
  | _ => true

/-- Places of a transaction before its emission. -/
def MicroPc.beforeEmission : MicroPc → Bool
  | .idle => false
  | .check => false
  | .loop => false
  | .commitDone => false
  | .commitSave => false
  | .exit => false
  | _ => true

/-- Places where `W.count` is within the capacity, the last emission made. -/
def MicroPc.afterEmission : MicroPc → Bool
  | .loop => true
  | .commitDone => true
  | .commitSave => true
  | .exit => true
  | _ => false

/-- Places inside a bit round. -/
def MicroPc.inRound : MicroPc → Bool
  | .rdP => true
  | .rdN => true
  | .resolve => true
  | .wrBit => true
  | .wrStore => true
  | .wrAdvance => true
  | _ => false

/-- The places of phase COMMIT. -/
def MicroPc.committing : MicroPc → Bool
  | .commit => true
  | .commitFilter => true
  | .commitEmit => true
  | .commitDone => true
  | .commitSave => true
  | _ => false

/-- Places between the copy into `S.previous_code` and the saving of the fork position. -/
def MicroPc.halfCommitted : MicroPc → Bool
  | .commitFilter => true
  | .commitEmit => true
  | .commitDone => true
  | .commitSave => true
  | _ => false

/-- The fork record of the transaction in progress names an earlier round that resolved to 0 (R133): stored already, or this
round's own while it is being written back. -/
def forkRecordSound (s : State) : Prop :=
  match s.upc with
  | .txCmd => s.W.lfValid = false
  | .rdP | .rdN | .resolve | .commit | .commitFilter | .commitEmit | .commitDone | .commitSave =>
      s.W.lfValid = true → s.W.lfPos.toNat < s.W.i.toNat ∧ s.W.code.getLsbD s.W.lfPos.toNat = false
  | .wrBit | .wrStore =>
      s.W.lfValid = true →
        (s.W.lfPos.toNat < s.W.i.toNat ∧ s.W.code.getLsbD s.W.lfPos.toNat = false) ∨
          (s.W.lfPos.toNat = s.W.i.toNat ∧ s.W.r = false)
  | .wrAdvance =>
      s.W.lfValid = true → s.W.lfPos.toNat ≤ s.W.i.toNat ∧ s.W.code.getLsbD s.W.lfPos.toNat = false
  | .idle | .check | .loop | .txReset | .exit => True

/-- The invariant of the machine: every step keeps it, and it holds at power-on. -/
structure MachineInvariant (s : State) : Prop where
  /-- `OUT` is in canonical form. -/
  memory : s.out.wf
  /-- `OUT` has exactly `capacity` entries, every byte of them present and no other (R195): no step adds or removes a byte. -/
  buffer : s.out.addresses = List.range (8 * s.capacity.toNat)
  /-- An operation that is no one-step operation is in progress only on a bank an INIT has written (R173(c)). -/
  written : s.upc ≠ .idle → s.written = true
  /-- A search in progress has status More (R18, R101). -/
  status : s.upc.searching = true → s.S.status = .more
  /-- A transaction is begun only below the capacity (R102) and emits at most one code (R111). -/
  roomLeft : s.upc.beforeEmission = true → s.W.count < s.capacity
  /-- The count never exceeds the capacity (R14). -/
  countWithin : s.upc.afterEmission = true → s.W.count ≤ s.capacity
  /-- The bit position starts at 0, is below 64 in a round, and is 64 at the commit (R15, R32). -/
  start : s.upc = .txCmd → s.W.i = 0
  /-- See `start`. -/
  round : s.upc.inRound = true → s.W.i.toNat < 64
  /-- See `start`. -/
  complete : s.upc.committing = true → s.W.i = 64
  /-- The fork record (R133). -/
  record : forkRecordSound s
  /-- From the copy of R110 to the end of the commit the previous code is the code of this transaction. -/
  copied : s.upc.halfCommitted = true → s.S.previousCode = s.W.code
  /-- A fork position is saved only where a fork was recorded (R114). -/
  saving : s.upc = .commitSave → s.W.lfValid = true
  /-- While the search goes on, the previous code has a 0 at the previous fork position (R118). -/
  forkPoint : s.S.status = .more → s.upc.halfCommitted = false →
    s.S.previousCode.getLsbD s.S.previousForkPosition.val = false
  /-- Before any completed transaction the previous code is zero (R11). -/
  noHistory : s.S.status = .more → s.upc.halfCommitted = false → s.S.previousForkPosition = 64 → s.S.previousCode = 0

/-! ### 2. The live part of `W` -/

/-- `W` with every register put to 0 that is dead at a place of the sequencer: written before it is read again (R37), or never
read again once the operation returned (R13). -/
def Working.live (u : MicroPc) (w : Working) : Working :=
  let dead : Working := ⟨0, 0, 0, false, 0, false, false, false, 0, 0⟩
  let fork : Working := { dead with count := w.count, lfValid := w.lfValid, lfPos := if w.lfValid then w.lfPos else 0 }
  let rounds : Working := { fork with i := w.i, code := w.code }
  match u with
  | .idle => dead
  | .check => dead
  | .loop => { dead with count := w.count }
  | .txReset => { dead with count := w.count }
  | .txCmd => rounds
  | .rdP => rounds
  | .rdN => { rounds with p := w.p }
  | .resolve => { rounds with p := w.p, n := w.n }
  | .wrBit => { rounds with r := w.r }
  | .wrStore => { rounds with r := w.r }
  | .wrAdvance => rounds
  | .commit => { fork with code := w.code }
  | .commitFilter => { fork with code := w.code }
  | .commitEmit => { fork with code := w.code }
  | .commitDone => fork
  | .commitSave => { dead with count := w.count, lfPos := w.lfPos }
  | .exit => { dead with count := w.count }

/-- The state without the dead registers of `W`. -/
def State.withoutDead (s : State) : State := { s with W := s.W.live s.upc }

/-- The outcome of a step without the dead registers of `W`. -/
def outcomeWithoutDead : Host.Outcome State Fault Refusal → Host.Outcome State Fault Refusal
  | .next s => .next s.withoutDead
  | .fault f => .fault f
  | .refused r => .refused r

/-! ### 3. RUN as one listing (R116) -/

/-- The bit that a round at position `i` resolves to when it read `p`, `n` (R123, R126 to R128), for a pair that is not (1,1). -/
def resolvedBit (S : SearchState) (count : BitVec 16) (i : Nat) (p n : Bool) : Bool :=
  if p = false ∧ n = false then
    if (0 < count.toNat ∨ S.isFirstTransaction = false) ∧ i < S.previousForkPosition.val then S.previousCode.getLsbD i
    else if i = S.previousForkPosition.val then true
    else false
  else p

/-- Whether such a round records a fork (R126 to R128): a fork resolved to 0. -/
def recordsFork (S : SearchState) (count : BitVec 16) (i : Nat) (p n : Bool) : Bool :=
  decide (p = false ∧ n = false) && !resolvedBit S count i p n

/-- What the rounds of a transaction come to. -/
inductive RoundsEnd where
  | complete (code : RomCode) (lastFork : Option (BitVec 6)) (trace : List BusEvent) (replies : List Bool)
  | violated (trace : List BusEvent) (replies : List Bool)
deriving DecidableEq, Repr

/-- `rounds` bit rounds from position `i` (R106, R120) against a list of replies; `none` when a primitive never returns. -/
def listRounds (S : SearchState) (count : BitVec 16) :
    Nat → Nat → RomCode → Option (BitVec 6) → List BusEvent → List Bool → Option RoundsEnd
  | 0, _, code, lastFork, trace, replies => some (.complete code lastFork trace replies)
  | rounds + 1, i, code, lastFork, trace, replies =>
    match replies with
    | p :: n :: rest =>
      if p = true ∧ n = true then some (.violated (trace ++ [.rd p, .rd n]) rest)
      else
        match rest with
        | _ :: rest' =>
          listRounds S count rounds (i + 1) (romSetBit code (BitVec.ofNat 6 i) (resolvedBit S count i p n))
            (if recordsFork S count i p n then some (BitVec.ofNat 6 i) else lastFork)
            (trace ++ [.rd p, .rd n, .wr (resolvedBit S count i p n)]) rest'
        | [] => none
    | _ => none

/-- What the listing carries from transaction to transaction. -/
structure RunView where
  S : SearchState
  count : BitVec 16
  out : Memory
  trace : List BusEvent
  replies : List Bool
deriving DecidableEq, Repr

/-- The loop of R116 for at most `fuel` transactions: `none` when it needs more, or when a primitive never returns. -/
def listLoop (capacity : BitVec 16) : Nat → RunView → Option RunView
  | 0, v => if v.count < capacity then none else some v
  | fuel + 1, v =>
    if v.count < capacity then
      match v.replies with
      | [] => none
      | false :: rest =>
        some { v with S := { v.S with status := .failed }, trace := v.trace ++ [.rst false], replies := rest }
      | true :: [] => none
      | true :: _ :: rest =>
        match listRounds v.S v.count 64 0 0 none (v.trace ++ [.rst true, .cmd v.S.command]) rest with
        | none => none
        | some (.violated trace replies) =>
          some { v with S := { v.S with status := .failed }, trace := trace, replies := replies }
        | some (.complete code lastFork trace replies) =>
          let emitted : Bool := !v.S.verifyChecksums || decide (crc8 (romBytes code) = 0)
          let v' : RunView :=
            { S := { v.S with previousCode := code }
              count := if emitted then v.count + 1 else v.count
              out := if emitted then v.out.writeEntry v.count code else v.out
              trace := trace
              replies := replies }
          match lastFork with
          | none => some { v' with S := { v'.S with status := .done } }
          | some f => listLoop capacity fuel { v' with S := { v'.S with previousForkPosition := forkPositionOf f } }
    else some v

/-- The listing of RUN (R116): the status test, the loop, the exit. -/
def listRun (capacity : BitVec 16) (fuel : Nat) (v : RunView) : Option RunView :=
  if v.S.status = .more then
    match listLoop capacity fuel { v with count := 0 } with
    | none => none
    | some v' => some { v' with S := { v'.S with isFirstTransaction := false } }
  else some { v with count := 0 }

/-! ### 4. The search of a fixed device set -/

/-- `a` and `b` agree on the bits below `j`. -/
def agreeBelow (j : Nat) (a b : RomCode) : Prop := ∀ k, k < j → a.getLsbD k = b.getLsbD k

/-- The bit-lexicographic order (R117): at the lowest bit at which they differ `a` has 0 and `b` has 1. -/
def bitLexLt (a b : RomCode) : Prop := ∃ j, j < 64 ∧ agreeBelow j a b ∧ a.getLsbD j = false ∧ b.getLsbD j = true

/-- Position `j` is an open fork of `c` in the set `D`: some device agrees with `c` below `j` and has 1 where `c` has 0 (R118). -/
def openFork (D : List RomCode) (c : RomCode) (j : Nat) : Prop :=
  ∃ d ∈ D, agreeBelow j d c ∧ d.getLsbD j = true ∧ c.getLsbD j = false

/-- `f` is the highest open fork of `c` (R118). -/
def lastOpenFork (D : List RomCode) (c : RomCode) (f : Nat) : Prop :=
  openFork D c f ∧ ∀ j, f < j → ¬ openFork D c j

/-- The RomCodes of a reference environment (R56). -/
def RefBus.codes (b : RefBus) : List RomCode := b.devices.map (·.code)

/-- Every device takes part in the search that the command selects (R58). -/
def RefBus.allParticipate (b : RefBus) (c : Byte) : Prop := ∀ d ∈ b.devices, d.participates c = true

/-! ### 5. The bit-serial checksum -/

/-- One step of R157's shift register: shift right by one; when the bit shifted out was 1, XOR with 0x8C. -/
def shiftStep (x : Byte) : Byte := if x.getLsbD 0 then (x >>> 1) ^^^ 0x8C else x >>> 1

/-- Eight steps. -/
def shiftEight (x : Byte) : Byte := shiftStep (shiftStep (shiftStep (shiftStep (shiftStep (shiftStep (shiftStep (shiftStep x)))))))

/-! ### 6. The host -/

/-- INIT, as the host presents it. -/
def hostInit (command : Byte) (verify : Bool) : HostAction :=
  .operation { HostPorts.bare 0b00#2 with command := command, verify := verify }

/-- RUN, as the host presents it. -/
def hostRun (capacity : BitVec 16) (buffer : List RomCode) : HostAction :=
  .operation { HostPorts.bare 0b01#2 with capacity := capacity, buffer := buffer }

/-- `ENUMERATE cmd, verify, cap` cut after `calls` RUNs (R84): a RUN on a terminal status does nothing, so a longer list adds none. -/
def enumerate (command : Byte) (verify : Bool) (capacity : BitVec 16) (buffer : List RomCode) (calls : Nat) : List HostAction :=
  hostInit command verify :: List.replicate calls (hostRun capacity buffer)

/-- The engine is stuck: the primitive it is about to issue never returns (R62). -/
def stuck (s : State) : Prop :=
  match s.upc with
  | .txReset => s.bus.issue .reset = none
  | .txCmd => s.bus.issue (.writeCommand s.S.command) = none
  | .rdP | .rdN => s.bus.issue .readBit = none
  | .wrBit => s.bus.issue (.writeBit s.W.r) = none
  | _ => False

end Sys2Proof.Machine
end

