-- ==== Sys2Proof/Certificates/Slice0/Obligations.lean ====
section
/-! DEFINITION. The statements for the provers, from the numbered rules of spec/.  A record update `{ s with … }` in a conclusion says
the instruction's effect and its frame at once: every field not named is as it was in `s`, `OUT` byte for byte included.  Statements
that hold of a model convention only say so and name the log entry (notes/assumptions). -/

open Sys2Proof Sys2Proof.Machine

/-! ### Encoding -/

/-- R71: the OP port selects the host operation, with its operands from the operand ports (R72 to R74); code 3 is refused by the
decoder. -/
def Obligations.OpPortSelectsTheHostOperation : Prop :=
  ∀ h : HostPorts,
    (h.op = 0b00#2 → decode (.op h) = .instr (.init h.command h.verify)) ∧
    (h.op = 0b01#2 → h.capacity.toNat ≤ h.buffer.length →
      decode (.op h) = .instr (.run ⟨h.capacity, h.buffer.take h.capacity.toNat⟩)) ∧
    (h.op = 0b10#2 → h.length.toNat ≤ h.input.length →
      decode (.op h) = .instr (.checksum (h.input.take h.length.toNat))) ∧
    (h.op = 0b11#2 → decode (.op h) = .rejected .reservedOp)

/-- R81, R75, R82: the codes of the three other ports, row by row as the tables write them. -/
def Obligations.BusPairAndForkCodesDecode : Prop :=
  (∀ (argByte : Byte) (argBit : Bool),
    decode (.bus ⟨0b00#2, argByte, argBit⟩) = .instr .busReset ∧
    decode (.bus ⟨0b01#2, argByte, argBit⟩) = .instr (.busWriteCommand argByte) ∧
    decode (.bus ⟨0b10#2, argByte, argBit⟩) = .instr (.busWriteBit argBit) ∧
    decode (.bus ⟨0b11#2, argByte, argBit⟩) = .instr .busReadBit) ∧
  decode (.pair 0b00#2) = .instr .pairFork ∧ decode (.pair 0b01#2) = .instr .pairZero ∧
  decode (.pair 0b10#2) = .instr .pairOne ∧ decode (.pair 0b11#2) = .instr .pairFail ∧
  decode (.forksel 0b110#3) = .instr .forkReplay ∧
  decode (.forksel 0b001#3) = .instr .forkExhausted ∧ decode (.forksel 0b101#3) = .instr .forkExhausted ∧
  decode (.forksel 0b010#3) = .instr .forkNewBarred ∧
  decode (.forksel 0b000#3) = .instr .forkNewBeyond ∧ decode (.forksel 0b100#3) = .instr .forkNewBeyond ∧
  decode (.forksel 0b011#3) = .rejected .impossibleForkVector ∧
  decode (.forksel 0b111#3) = .rejected .impossibleForkVector

/-- Decode and encode agree: every well-formed instruction that has a code, with every operand, decodes back from its encoding. -/
def Obligations.DecodeOfEncodeIsTheInstruction : Prop :=
  ∀ (i : Instr) (sel : Selector), i.wellFormed = true → encode i = some sel → decode sel = .instr i

/-- What decodes is well-formed, belongs to the format of its port, and has a code. -/
def Obligations.DecodedInstructionsAreWellFormed : Prop :=
  ∀ (sel : Selector) (i : Instr), decode sel = .instr i →
    i.wellFormed = true ∧ i.format = sel.format ∧ (encode i).isSome = true

/-! ### The step -/

/-- A step runs the decoded instruction: a host operation on the port, on the state that no longer presents it; with the port empty,
the micro-operation that the place of the sequencer selects (R30), and at IDLE the next operation of the waiting host; with nothing to
do at IDLE, nothing. -/
def Obligations.StepRunsTheFetchedInstruction : Prop :=
  ∀ (s : State),
    (∀ (h : HostPorts) (i : Instr), s.port = some (.operation h) → decode (.op h) = .instr i →
      step s = exec i { s with port := none }) ∧
    (s.port = none →
      (∀ pr ∈ ([(.check, .statusTest), (.loop, .loopTest), (.txReset, .txBegin), (.txCmd, .txCmd), (.rdP, .readPair),
          (.rdN, .readPair), (.resolve, .classify), (.wrBit, .writeBack), (.wrStore, .store), (.wrAdvance, .advance),
          (.commit, .commit), (.commitFilter, .crcFilter), (.commitEmit, .emit), (.commitDone, .doneTest),
          (.commitSave, .saveFork), (.exit, .exit)] : List (MicroPc × Instr)),
        s.upc = pr.1 → step s = exec pr.2 s) ∧
      (s.upc = .idle →
        (∀ (h : HostPorts) (rest : List HostAction) (i : Instr), s.program = .operation h :: rest →
          decode (.op h) = .instr i → step s = exec i { s with program := rest }) ∧
        (s.program = [] → step s = .next s)))

/-- R173: the four uses a model must refuse. -/
def Obligations.ForbiddenUsesAreRefused : Prop :=
  ∀ s : State,
    (∀ h : HostPorts, h.op = 0b11#2 → s.port = some (.operation h) → step s = .refused (.undecodable .reservedOp)) ∧
    (s.upc ≠ .idle →
      (∀ c v, exec (.init c v) s = .refused .operationInProgress) ∧
      (∀ operands, exec (.run operands) s = .refused .operationInProgress) ∧
      (∀ input, exec (.checksum input) s = .refused .operationInProgress) ∧
      (∀ h, s.port = some (.operation h) → ∃ r, step s = .refused r)) ∧
    (s.upc = .idle → s.written = false → ∀ operands, exec (.run operands) s = .refused .runBeforeInit) ∧
    (∀ f v, s.port = some (.writeField f v) → step s = .refused .hostWrite)

/-- R17: an idle block gives every field of `S` to the host by name (as its register code of R76, R77, zero-extended: log entry 21);
a busy one refuses. -/
def Obligations.HostReadsSWhenIdle : Prop :=
  ∀ (s : State) (f : SField), s.port = some (.readField f) →
    (s.upc = .idle → ∃ value : BitVec 64,
      step s = .next { s with port := none, result := .field value } ∧
      (f = .previousCode → value = s.S.previousCode) ∧
      (f = .previousForkPosition → value.toNat = s.S.previousForkPosition.val) ∧
      (f = .command → value.toNat = s.S.command.toNat) ∧
      (f = .status → value.toNat = (match s.S.status with | .more => 0 | .done => 1 | .failed => 2)) ∧
      (f = .isFirstTransaction → value.toNat = s.S.isFirstTransaction.toNat) ∧
      (f = .verifyChecksums → value.toNat = s.S.verifyChecksums.toNat)) ∧
    (s.upc ≠ .idle → step s = .refused .operationInProgress)

/-! ### INIT -/

/-- R35, R91: INIT on an idle block writes all six fields of `S` and touches no register of `W`, no bus and no byte of `OUT`.  (It also
marks `S` as written, log entry 5, and returns nothing.) -/
def Obligations.InitResetsTheBank : Prop :=
  ∀ (command : Byte) (verify : Bool) (s : State), s.upc = .idle →
    ∃ t, exec (.init command verify) s = .next t ∧
      t.S.previousCode = 0 ∧ t.S.previousForkPosition = 64 ∧ t.S.command = command ∧ t.S.status = .more ∧
      t.S.isFirstTransaction = true ∧ t.S.verifyChecksums = verify ∧
      t = { s with S := t.S, written := true, result := .nothing }

/-- R93: INIT and then at once a RUN with capacity 0 returns 0 with status More and no bus activity; of the six fields INIT wrote only
`is_first_transaction` differs, and the buffer given has no entry within the capacity.  Five steps: INIT, RUN, status test, loop test, exit. -/
def Obligations.InitThenRunWithCapacityZero : Prop :=
  ∀ (command : Byte) (verify : Bool) (buffer : List RomCode) (rest : List HostAction) (s : State),
    s.upc = .idle → s.port = none → s.program = hostInit command verify :: hostRun 0 buffer :: rest →
      runSteps 5 s = .next
        { s with
          S := ⟨0, 64, command, .more, false, verify⟩
          W := { s.W with count := 0 }
          written := true
          capacity := 0
          out := []
          result := .count 0
          program := rest }

/-! ### RUN: the frame of a transaction -/

/-- R30, R39, R73: an idle block that an INIT has written accepts a RUN: its capacity and the host's buffer are held (log entries 6 and 10),
whatever an earlier RUN left there, and the sequencer goes to CHECK.  Byte `k` of entry `j` of the buffer is byte `8j + k` of `OUT`, which
has no byte beyond the buffer. -/
def Obligations.RunIsAccepted : Prop :=
  ∀ (cap : BitVec 16) (buffer : List RomCode) (s : State), s.upc = .idle → s.written = true →
    ∃ t, exec (.run ⟨cap, buffer⟩) s = .next t ∧
      t = { s with upc := .check, capacity := cap, out := t.out, result := .nothing } ∧
      (∀ (j k : Nat) (hj : j < buffer.length), k < 8 → t.out.read (8 * j + k) = some (buffer[j].extractLsb' (8 * k) 8)) ∧
      (∀ a, 8 * buffer.length ≤ a → t.out.read a = none)

/-- R101: a status that is not More returns 0 with no bus activity and no state change, `S.is_first_transaction` included; only More goes
on to the loop. -/
def Obligations.StatusTestGuardsTheRun : Prop :=
  ∀ s : State,
    (s.S.status ≠ .more → exec .statusTest s = .next { s with upc := .idle, result := .count 0 }) ∧
    (s.S.status = .more → ∃ t, exec .statusTest s = .next t ∧ t.upc = .loop)

/-- R174, R168: a RUN on a terminal status is neither refused nor an error: it returns 0 with no bus activity, no change of `S` or of
`W`, and the buffer it was given untouched. -/
def Obligations.RunOnTerminalStatusReturnsZero : Prop :=
  ∀ (cap : BitVec 16) (buffer : List RomCode) (s : State),
    s.upc = .idle → s.written = true → s.port = none → s.S.status ≠ .more →
      ∃ t, exec (.run ⟨cap, buffer⟩) s = .next t ∧
        step t = .next { s with capacity := cap, out := Memory.ofEntries buffer, result := .count 0 }

/-- R102: the status test passed, `W.count` is 0; a transaction is begun exactly while `W.count < capacity`, else the RUN goes to its exit;
with capacity 0 the RUN returns 0 with no bus activity and status More, its exit run. -/
def Obligations.LoopTestComparesCountWithCapacity : Prop :=
  ∀ s : State,
    (s.S.status = .more → exec .statusTest s = .next { s with upc := .loop, W := { s.W with count := 0 } }) ∧
    (s.W.count.toNat < s.capacity.toNat → exec .loopTest s = .next { s with upc := .txReset }) ∧
    (s.capacity.toNat ≤ s.W.count.toNat → exec .loopTest s = .next { s with upc := .exit }) ∧
    (s.S.status = .more → s.capacity = 0 → s.upc = .check → s.port = none →
      runSteps 3 s = .next
        { s with
          S := { s.S with isFirstTransaction := false }
          W := { s.W with count := 0 }
          result := .count 0
          upc := .idle })

/-- R103, R104: the transaction's registers are cleared and the bus reset is issued, whatever it answers; with presence the command is
next, without it the status is Failed and the exit is next. -/
def Obligations.TransactionBeginsWithReset : Prop :=
  ∀ (s : State) (presence : Bool) (bus' : BusEnv), s.bus.issue .reset = some (presence, bus') →
    exec .txBegin s = .next
      { s with
        S := if presence then s.S else { s.S with status := .failed }
        W := { s.W with i := 0, code := 0, lfValid := false }
        bus := bus'
        ans := presence
        trace := s.trace ++ [.rst presence]
        upc := if presence then .txCmd else .exit }

/-- R104: no presence ends the whole RUN with status Failed: the reset is the last event, `S.previous_code`,
`S.previous_fork_position` and `OUT` keep their values, and `W.count` is returned (through the exit of R115). -/
def Obligations.NoPresenceEndsTheRun : Prop :=
  ∀ (s : State) (bus' : BusEnv), s.bus.issue .reset = some (false, bus') → s.upc = .txReset → s.port = none →
    runSteps 2 s = .next
      { s with
        S := { s.S with status := .failed, isFirstTransaction := false }
        W := { s.W with i := 0, code := 0, lfValid := false }
        bus := bus'
        ans := false
        trace := s.trace ++ [.rst false]
        result := .count s.W.count
        upc := .idle }

/-- R105: the command phase issues one WRITE_COMMAND with `S.command`, right after a reset that reported presence and before the first
bit read. -/
def Obligations.CommandPhaseSendsTheCommand : Prop :=
  (∀ (s : State) (a : Bool) (bus' : BusEnv), s.bus.issue (.writeCommand s.S.command) = some (a, bus') →
    exec .txCmd s = .next { s with bus := bus', trace := s.trace ++ [.cmd s.S.command], upc := .rdP }) ∧
  (∀ (s : State) (a : Bool) (bus' bus'' : BusEnv), s.upc = .txReset → s.port = none →
    s.bus.issue .reset = some (true, bus') → bus'.issue (.writeCommand s.S.command) = some (a, bus'') →
      runSteps 2 s = .next
        { s with
          W := { s.W with i := 0, code := 0, lfValid := false }
          bus := bus''
          ans := true
          trace := s.trace ++ [.rst true, .cmd s.S.command]
          upc := .rdP })

/-- R110: commit copies the assembled code into `S.previous_code`, all 64 bits, always, and before the filter. -/
def Obligations.CommitCopiesTheCodeAlways : Prop :=
  ∀ s : State,
    exec .commit s = .next { s with S := { s.S with previousCode := s.W.code }, upc := .commitFilter }

/-- R154, R112: without verification every code goes on to emission; with it exactly a code whose eight bytes, byte 0 first, have checksum
0x00, and the computation leaves only `W.crc` and `W.k` behind.  That `W.crc` and `W.k` stay as they are without verification is the model's
choice (log entry 22, DESIGN CHOICE): R154 leaves open whether the hardware computes the checksum anyway and calls that unobservable. -/
def Obligations.FilterPassesOnZeroChecksum : Prop :=
  ∀ s : State,
    (s.S.verifyChecksums = false → exec .crcFilter s = .next { s with upc := .commitEmit }) ∧
    (s.S.verifyChecksums = true →
      ∃ t, exec .crcFilter s = .next t ∧
        t.upc = (if crc8 [s.W.code.extractLsb' 0 8, s.W.code.extractLsb' 8 8, s.W.code.extractLsb' 16 8,
            s.W.code.extractLsb' 24 8, s.W.code.extractLsb' 32 8, s.W.code.extractLsb' 40 8, s.W.code.extractLsb' 48 8,
            s.W.code.extractLsb' 56 8] = 0x00 then .commitEmit else .commitDone) ∧
        t = { s with W := { s.W with crc := t.W.crc, k := t.W.k }, upc := t.upc })

/-- R111, R42, R43: below the capacity, emission writes entry `W.count` of `OUT` whole, byte `j` of the code at byte `j` of the entry, leaves
every other byte of `OUT` alone, and counts up by one. -/
def Obligations.EmitWritesOneEntry : Prop :=
  ∀ s : State, s.W.count.toNat < s.capacity.toNat →
    ∃ t, exec .emit s = .next t ∧
      (∀ j, j < 8 → t.out.read (8 * s.W.count.toNat + j) = some (s.W.code.extractLsb' (8 * j) 8)) ∧
      (∀ a, a < 8 * s.W.count.toNat ∨ 8 * s.W.count.toNat + 8 ≤ a → t.out.read a = s.out.read a) ∧
      t.W.count.toNat = s.W.count.toNat + 1 ∧
      t = { s with out := t.out, W := { s.W with count := t.W.count }, upc := .commitDone }

/-- R195 (log entry 11): the buffer has exactly `capacity` entries; a RUN that is given fewer is refused by the decoder, and
an emission or a copy to an entry beyond them faults by name. -/
def Obligations.EntryBeyondCapacityFaults : Prop :=
  (∀ h : HostPorts, h.op = 0b01#2 → h.buffer.length < h.capacity.toNat → decode (.op h) = .rejected .bufferTooShort) ∧
  (∀ s : State, s.capacity.toNat ≤ s.W.count.toNat →
    exec .emit s = .fault (.outEntryAbsent s.W.count) ∧
    exec (.copy .codeToOut) s = .fault (.outEntryAbsent s.W.count))

/-- R113: no recorded fork sets Done and goes to the exit, `S.previous_fork_position` not written; the test comes after an emission and
after a discard alike. -/
def Obligations.DoneWhenNoForkRecorded : Prop :=
  ∀ s : State,
    (s.W.lfValid = false → exec .doneTest s = .next { s with S := { s.S with status := .done }, upc := .exit }) ∧
    (∀ t, exec .emit s = .next t → t.upc = .commitDone) ∧
    (s.S.verifyChecksums = true → crc8 (romBytes s.W.code) ≠ 0x00 → ∃ t, exec .crcFilter s = .next t ∧ t.upc = .commitDone)

/-- R114: where a fork was recorded, its position, zero-extended, becomes the previous fork position; the status stays, and the loop test
is next. -/
def Obligations.SavedForkPositionIsTheRecord : Prop :=
  ∀ s : State,
    (s.W.lfValid = true → exec .doneTest s = .next { s with upc := .commitSave }) ∧
    (∃ t, exec .saveFork s = .next t ∧ t.S.previousForkPosition.val = s.W.lfPos.toNat ∧
      t = { s with S := { s.S with previousForkPosition := t.S.previousForkPosition }, upc := .loop })

/-- R115: the exit clears `S.is_first_transaction` and returns `W.count`, and every RUN that passed the status test leaves through it: no
other instruction but the status test takes a busy block to IDLE. -/
def Obligations.EveryRunLeavesThroughTheExit : Prop :=
  (∀ s : State,
    exec .exit s = .next
      { s with S := { s.S with isFirstTransaction := false }, result := .count s.W.count, upc := .idle }) ∧
  (∀ (i : Instr) (s t : State), exec i s = .next t → s.upc ≠ .idle → t.upc = .idle → i = .statusTest ∨ i = .exit)

/-! ### The bit round -/

/-- R121: two reads, one after the other; the first answer is `W.p`, the second `W.n`, whatever they are. -/
def Obligations.ReadPairTakesTheTrueBitFirst : Prop :=
  ∀ (s : State) (p n : Bool) (bus' bus'' : BusEnv), s.upc ≠ .rdN →
    s.bus.issue .readBit = some (p, bus') → bus'.issue .readBit = some (n, bus'') →
      exec .readPair s = .next
        { s with
          W := { s.W with p := p, n := n }
          bus := bus''
          ans := n
          trace := s.trace ++ [.rd p, .rd n]
          upc := .resolve }

/-- R122: the class is a function of `{W.p, W.n}` alone, and CLASSIFY does what the selected row of format PAIR does. -/
def Obligations.ClassifyRunsTheSelectedPairRow : Prop :=
  ∀ s : State, ∃ i, decode (.pair (pairCode s)) = .instr i ∧ exec .classify s = exec i s ∧
    (i = .pairFork ↔ s.W.p = false ∧ s.W.n = false) ∧
    (i = .pairZero ↔ s.W.p = false ∧ s.W.n = true) ∧
    (i = .pairOne ↔ s.W.p = true ∧ s.W.n = false) ∧
    (i = .pairFail ↔ s.W.p = true ∧ s.W.n = true)

/-- R123: an agreed bit is adopted, `W.r <- W.p`, nothing else changes and no history is consulted.  The rows ZERO and ONE set the resolved
bit of the table of R75, 0 and 1, in every state: on a pair that is not the row's own, where R123 read alone says `W.p`, this is the model's
reading (log entry 23, DEDUCED). -/
def Obligations.AgreedBitIsAdopted : Prop :=
  ∀ s : State,
    (s.W.p ≠ s.W.n → exec .classify s = .next { s with W := { s.W with r := s.W.p }, upc := .wrBit }) ∧
    exec .pairZero s = .next { s with W := { s.W with r := false }, upc := .wrBit } ∧
    exec .pairOne s = .next { s with W := { s.W with r := true }, upc := .wrBit }

/-- R124: the pair (1,1) sets Failed and goes to the exit, at every position; no bit is written back, and `S.previous_code` and
`S.previous_fork_position` are not written.  The second step is the exit of R115. -/
def Obligations.FailingPairEndsTheRun : Prop :=
  ∀ s : State,
    exec .pairFail s = .next { s with S := { s.S with status := .failed }, upc := .exit } ∧
    (s.W.p = true → s.W.n = true → s.upc = .resolve → s.port = none →
      runSteps 2 s = .next
        { s with
          S := { s.S with status := .failed, isFirstTransaction := false }
          result := .count s.W.count
          upc := .idle })

/-- R164, R163: a failure sets the status and goes to the exit, which clears `S.is_first_transaction` and returns `W.count`; nothing else is
changed or saved, no bus primitive is issued, and the two causes leave the same state. -/
def Obligations.RaiseFailedEntryAndExit : Prop :=
  ∀ (cause : FailCause) (s : State),
    ∃ t, exec (.raiseFailed cause) s = .next t ∧
      t = { s with S := { s.S with status := .failed }, upc := .exit } ∧
      exec (.raiseFailed .noPresence) s = exec (.raiseFailed .protocolViolation) s ∧
      (s.port = none →
        step t = .next
          { s with
            S := { s.S with status := .failed, isFirstTransaction := false }
            result := .count s.W.count
            upc := .idle })

/-- R125, R82: a fork takes exactly one arm, the one the FORKSEL vector selects, tested in the order REPLAY, EXHAUSTED, NEW; the two
impossible vectors never arise. -/
def Obligations.ForkTakesTheSelectedArm : Prop :=
  ∀ s : State, ∃ i, decode (.forksel (forkselCode s)) = .instr i ∧ exec .pairFork s = exec i s ∧
    (∃ t, exec .pairFork s = .next t ∧ t.upc = .wrBit ∧ t = { s with W := t.W, upc := .wrBit }) ∧
    (i = .forkReplay ↔
      (0 < s.W.count.toNat ∨ s.S.isFirstTransaction = false) ∧ s.W.i.toNat < s.S.previousForkPosition.val) ∧
    (i = .forkExhausted ↔ s.W.i.toNat = s.S.previousForkPosition.val) ∧
    (i = .forkNewBarred ↔
      s.W.count.toNat = 0 ∧ s.S.isFirstTransaction = true ∧ s.W.i.toNat < s.S.previousForkPosition.val) ∧
    (i = .forkNewBeyond ↔ s.S.previousForkPosition.val < s.W.i.toNat)

/-- R126: under REPLAY's condition a fork takes the bit of the previous code; a 0 is recorded at `W.i`, a 1 leaves the record as it is. -/
def Obligations.ReplayRepeatsThePreviousBit : Prop :=
  ∀ s : State, s.W.i.toNat < 64 →
    ((0 < s.W.count.toNat ∨ s.S.isFirstTransaction = false) → s.W.i.toNat < s.S.previousForkPosition.val →
      exec .pairFork s = exec .forkReplay s) ∧
    (s.S.previousCode.getLsbD s.W.i.toNat = true →
      exec .forkReplay s = .next { s with W := { s.W with r := true }, upc := .wrBit }) ∧
    (s.S.previousCode.getLsbD s.W.i.toNat = false →
      ∃ t, exec .forkReplay s = .next t ∧ t.W.lfPos.toNat = s.W.i.toNat ∧
        t = { s with W := { s.W with r := false, lfValid := true, lfPos := t.W.lfPos }, upc := .wrBit })

/-- R127: at the previous fork position the bit is forced to 1 and the record is left as it is. -/
def Obligations.ExhaustedForkForcesOne : Prop :=
  ∀ s : State,
    exec .forkExhausted s = .next { s with W := { s.W with r := true }, upc := .wrBit } ∧
    (s.W.i.toNat = s.S.previousForkPosition.val → exec .pairFork s = exec .forkExhausted s)

/-- R128: every other fork is new: the 0 branch is taken and recorded at `W.i`; this covers positions beyond the previous fork, and
positions below it while REPLAY is barred. -/
def Obligations.NewForkTakesZeroAndIsRecorded : Prop :=
  ∀ s : State, s.W.i.toNat < 64 →
    (∃ t, exec .forkNewBarred s = .next t ∧ exec .forkNewBeyond s = .next t ∧ t.W.lfPos.toNat = s.W.i.toNat ∧
      t = { s with W := { s.W with r := false, lfValid := true, lfPos := t.W.lfPos }, upc := .wrBit }) ∧
    (s.S.previousForkPosition.val < s.W.i.toNat → exec .pairFork s = exec .forkNewBeyond s) ∧
    (s.W.i.toNat < s.S.previousForkPosition.val → s.W.count.toNat = 0 → s.S.isFirstTransaction = true →
      exec .pairFork s = exec .forkNewBarred s)

/-- R132: while the previous code is 0 and the previous fork position is the sentinel, a fork resolves to 0 and is recorded whether or
not `S.is_first_transaction` is set. -/
def Obligations.FirstFlagIsRedundantBeforeAnyFork : Prop :=
  ∀ (s : State) (flag : Bool), s.S.previousCode = 0 → s.S.previousForkPosition = 64 → s.W.i.toNat < 64 →
    ∃ t, exec .pairFork s = .next t ∧ t.W.r = false ∧ t.W.lfValid = true ∧ t.W.lfPos.toNat = s.W.i.toNat ∧
      exec .pairFork { s with S := { s.S with isFirstTransaction := flag } } =
        .next { t with S := { s.S with isFirstTransaction := flag } }

/-- R129: the write-back issues one WRITE_BIT with the resolved bit. -/
def Obligations.WriteBackDrivesTheResolvedBit : Prop :=
  ∀ (s : State) (a : Bool) (bus' : BusEnv), s.bus.issue (.writeBit s.W.r) = some (a, bus') →
    exec .writeBack s = .next { s with bus := bus', trace := s.trace ++ [.wr s.W.r], upc := .wrStore }

/-- R130: the store writes bit `W.i` of the accumulator with the resolved bit and leaves its other 63 bits. -/
def Obligations.StoreWritesBitI : Prop :=
  ∀ s : State, s.W.i.toNat < 64 →
    ∃ t, exec .store s = .next t ∧
      (∀ j, j < 64 → t.W.code.getLsbD j = if j = s.W.i.toNat then s.W.r else s.W.code.getLsbD j) ∧
      t = { s with W := { s.W with code := t.W.code }, upc := .wrAdvance }

/-- R131, R32: the bit position advances by exactly 1, without wrapping, to the next round or, at 64, to the commit. -/
def Obligations.AdvanceByOneToRoundOrCommit : Prop :=
  ∀ s : State, s.W.i.toNat < 64 →
    ∃ t, exec .advance s = .next t ∧ t.W.i.toNat = s.W.i.toNat + 1 ∧
      t = { s with W := { s.W with i := t.W.i }, upc := if s.W.i.toNat = 63 then .commit else .rdP }

/-- R120: a bit round is its micro-operations in order: from RD_P five steps of the sequencer and BIT_ROUND come to the same state; the
events are two reads and the write of the resolved bit, which is stored at `W.i`; the record moves to `W.i` exactly when a fork resolved
to 0.  With the pair (1,1) the round ends after the two reads, at the exit with Failed (R124). -/
def Obligations.BitRoundIsItsMicroOperations : Prop :=
  ∀ (s : State) (p n a : Bool) (bus' bus'' bus''' : BusEnv), s.upc = .rdP → s.port = none → s.W.i.toNat < 64 →
    s.bus.issue .readBit = some (p, bus') → bus'.issue .readBit = some (n, bus'') →
      (bus''.issue (.writeBit (resolvedBit s.S s.W.count s.W.i.toNat p n)) = some (a, bus''') → (p = false ∨ n = false) →
        ∃ t, exec .bitRound s = .next t ∧ runSteps 5 s = .next t ∧
          t.S = s.S ∧ t.out = s.out ∧ t.bus = bus''' ∧ t.W.count = s.W.count ∧
          t.W.r = resolvedBit s.S s.W.count s.W.i.toNat p n ∧
          t.trace = s.trace ++ [.rd p, .rd n, .wr t.W.r] ∧
          t.W.code = romSetBit s.W.code (BitVec.ofNat 6 s.W.i.toNat) t.W.r ∧
          t.W.i.toNat = s.W.i.toNat + 1 ∧
          t.upc = (if s.W.i.toNat = 63 then .commit else .rdP) ∧
          (if recordsFork s.S s.W.count s.W.i.toNat p n then t.W.lfValid = true ∧ t.W.lfPos.toNat = s.W.i.toNat
           else t.W.lfValid = s.W.lfValid ∧ t.W.lfPos = s.W.lfPos)) ∧
      (p = true → n = true →
        ∃ t, exec .bitRound s = .next t ∧ t.upc = .exit ∧ t.S = { s.S with status := .failed } ∧ t.bus = bus'' ∧
          t.trace = s.trace ++ [.rd true, .rd true] ∧ t.W.code = s.W.code ∧ t.W.count = s.W.count ∧ t.out = s.out)

/-! ### Bus primitives -/

/-- R53 to R55, R64: a primitive that returns adds its one event to the trace and, where it has an answer, puts it on `ans`; no register of
`S` or `W` and no byte of `OUT` changes. -/
def Obligations.BusPrimitivesCompleteWithOneEvent : Prop :=
  ∀ (s : State) (a : Bool) (bus' : BusEnv),
    (s.bus.issue .reset = some (a, bus') →
      exec .busReset s = .next { s with bus := bus', ans := a, trace := s.trace ++ [.rst a] }) ∧
    (∀ c, s.bus.issue (.writeCommand c) = some (a, bus') →
      exec (.busWriteCommand c) s = .next { s with bus := bus', trace := s.trace ++ [.cmd c] }) ∧
    (∀ b, s.bus.issue (.writeBit b) = some (a, bus') →
      exec (.busWriteBit b) s = .next { s with bus := bus', trace := s.trace ++ [.wr b] }) ∧
    (s.bus.issue .readBit = some (a, bus') →
      exec .busReadBit s = .next { s with bus := bus', ans := a, trace := s.trace ++ [.rd a] })

/-- R62: a primitive that never returns leaves the engine stuck in the phase that issued it: the RUN never returns, no later state is
reached, and `S` keeps the values written so far. -/
def Obligations.StuckPrimitiveHoldsThePhase : Prop :=
  ∀ s : State, stuck s → s.port = none →
    ∃ t, t.upc = s.upc ∧ t.S = s.S ∧ t.out = s.out ∧ t.trace = s.trace ∧ t.result = s.result ∧
      ∀ k, runSteps (k + 1) s = .next t

/-! ### Accessors -/

/-- R140, R141: GETBIT reads bit `i`; SETBIT's result has bit `i` equal to `b` and every other bit as it was (the rows' outputs stand on
`fnOut`, log entry 8). -/
def Obligations.GetBitAndSetBitAreExact : Prop :=
  ∀ (v : RomCode) (i : BitVec 6) (b : Bool) (s : State),
    (∃ t, exec (.getBit v i) s = .next t ∧ t.fnOut = (if v.getLsbD i.toNat then 1 else 0) ∧ t = { s with fnOut := t.fnOut }) ∧
    (∃ t, exec (.setBit v i b) s = .next t ∧
      (∀ j, j < 64 → t.fnOut.getLsbD j = if j = i.toNat then b else v.getLsbD j) ∧ t = { s with fnOut := t.fnOut })

/-- R143: the three moves copy all 64 bits, bytes in order, and write nothing else. -/
def Obligations.CopyMovesWholeCodes : Prop :=
  ∀ s : State,
    exec (.copy .codeToPrevious) s = .next { s with S := { s.S with previousCode := s.W.code } } ∧
    exec (.copy .zeroToPrevious) s = .next { s with S := { s.S with previousCode := 0 } } ∧
    (s.W.count.toNat < s.capacity.toNat →
      ∃ t, exec (.copy .codeToOut) s = .next t ∧
        (∀ j, j < 8 → t.out.read (8 * s.W.count.toNat + j) = some (s.W.code.extractLsb' (8 * j) 8)) ∧
        (∀ a, a < 8 * s.W.count.toNat ∨ 8 * s.W.count.toNat + 8 ≤ a → t.out.read a = s.out.read a) ∧
        t = { s with out := t.out })

/-! ### The checksum -/

/-- R151: MAP XORs one constant per set bit, from 0: it maps 0 to 0, each single bit to its constant, and XOR to XOR; the row puts it on
`fnOut` and changes nothing else. -/
def Obligations.MapXorsTheConstants : Prop :=
  (∀ (x : Byte) (s : State), ∃ t, exec (.map x) s = .next t ∧ t.fnOut.toNat = (crcMap x).toNat ∧
    t = { s with fnOut := t.fnOut }) ∧
  crcMap 0x00 = 0x00 ∧ crcMap 0x01 = 0x5E ∧ crcMap 0x02 = 0xBC ∧ crcMap 0x04 = 0x61 ∧ crcMap 0x08 = 0xC2 ∧
  crcMap 0x10 = 0x9D ∧ crcMap 0x20 = 0x23 ∧ crcMap 0x40 = 0x46 ∧ crcMap 0x80 = 0x8C ∧
  (∀ x y : Byte, crcMap (x ^^^ y) = crcMap x ^^^ crcMap y)

/-- R152: the accumulation starts from 0 and maps accumulator XOR byte, bytes in order; the row leaves the result in `W.crc` (and the byte
index in `W.k`, log entry 14) and changes nothing else. -/
def Obligations.CrcAccumulatesByteByByte : Prop :=
  crc8 [] = 0x00 ∧
  (∀ (bs : List Byte) (b : Byte), crc8 (bs ++ [b]) = crcMap (crc8 bs ^^^ b)) ∧
  (∀ (bs : List Byte) (s : State), ∃ t, exec (.crc8 bs) s = .next t ∧ t.W.crc = crc8 bs ∧
    t = { s with W := { s.W with crc := crc8 bs, k := t.W.k } })

/-- R153: CHECKSUM on an idle block, initialised or not, returns the checksum of its bytes; no field of `S`, no bus and no byte of `OUT`
is touched; length 0 returns 0x00. -/
def Obligations.ChecksumReturnsTheCrc : Prop :=
  ∀ (input : List Byte) (s : State), s.upc = .idle →
    ∃ t, exec (.checksum input) s = .next t ∧ t.result = .byte (crc8 input) ∧ (input = [] → t.result = .byte 0x00) ∧
      t = { s with W := { s.W with crc := t.W.crc, k := t.W.k }, result := t.result }

/-- R155: over sequences of one length the checksum is linear; MAP is a bijection and maps only 0x00 to 0x00. -/
def Obligations.ChecksumIsLinear : Prop :=
  (∀ a b : List Byte, a.length = b.length → crc8 (List.zipWith (· ^^^ ·) a b) = crc8 a ^^^ crc8 b) ∧
  Function.Bijective crcMap ∧ (∀ x : Byte, crcMap x = 0x00 ↔ x = 0x00)

/-- R156: the one check byte that makes the checksum 0x00 is the checksum so far; flipping any one bit of a sequence with checksum 0x00
gives a non-zero checksum; the all-zero RomCode passes. -/
def Obligations.CheckByteIsUniqueAndFlipsAreFound : Prop :=
  (∀ (bs : List Byte) (c : Byte), crc8 (bs ++ [c]) = 0x00 ↔ c = crc8 bs) ∧
  (∀ (bs : List Byte) (k j : Nat) (hk : k < bs.length), j < 8 → crc8 bs = 0x00 →
    crc8 (bs.set k (bs[k] ^^^ BitVec.twoPow 8 j)) ≠ 0x00) ∧
  crc8 (romBytes 0) = 0x00

/-- R157: MAP equals eight steps of the shift register; the constants are the images of the single-bit inputs; the check value over the
ASCII digits 1 to 9 is 0xA1. -/
def Obligations.MapIsTheShiftRegister : Prop :=
  (∀ x : Byte, crcMap x = shiftEight x) ∧
  (∀ k, k < 8 → shiftEight (BitVec.twoPow 8 k) = crcK k) ∧
  crc8 [0x31, 0x32, 0x33, 0x34, 0x35, 0x36, 0x37, 0x38, 0x39] = 0xA1

/-! ### Power-on, the invariant, whole-machine rules -/

/-- R185, R36: after power-on the phase is IDLE, no bus primitive has been issued, no INIT has written `S`, and no buffer
has been handed over; a RUN is refused and a CHECKSUM runs. -/
def Obligations.PowerOnIsIdleAndUnwritten : Prop :=
  State.reset.upc.phase = .IDLE ∧ State.reset.trace = [] ∧ State.reset.written = false ∧ State.reset.out = [] ∧
  (∀ operands, exec (.run operands) State.reset = .refused .runBeforeInit) ∧
  (∀ input, ∃ t, exec (.checksum input) State.reset = .next t ∧ t.result = .byte (crc8 input))

/-- The invariant holds at power-on. -/
def Obligations.PowerOnMeetsTheMachineInvariant : Prop := MachineInvariant State.reset

/-- Every step keeps the invariant, whatever the host does and the bus answers. -/
def Obligations.EveryStepKeepsTheMachineInvariant : Prop :=
  ∀ s t : State, MachineInvariant s → step s = .next t → MachineInvariant t

/-- From a state that meets the invariant no step faults: the one fault of the model is out of reach (R14, R43). -/
def Obligations.NoStepFaultsUnderTheInvariant : Prop :=
  ∀ (s : State) (f : Fault), MachineInvariant s → step s ≠ .fault f

/-- R11, R12, R20, R22, R23: which instructions write which field of `S`. -/
def Obligations.FieldsOfSHaveTheirWritersOnly : Prop :=
  ∀ (i : Instr) (s t : State), exec i s = .next t →
    ((t.S.command ≠ s.S.command ∨ t.S.verifyChecksums ≠ s.S.verifyChecksums) → ∃ c v, i = .init c v) ∧
    (t.S.previousCode ≠ s.S.previousCode →
      (∃ c v, i = .init c v) ∨ i = .commit ∨ i = .copy .codeToPrevious ∨ i = .copy .zeroToPrevious) ∧
    (t.S.previousForkPosition ≠ s.S.previousForkPosition → (∃ c v, i = .init c v) ∨ i = .saveFork) ∧
    (t.S.isFirstTransaction ≠ s.S.isFirstTransaction → (∃ c v, i = .init c v) ∨ i = .exit) ∧
    (t.S.status ≠ s.S.status →
      (∃ c v, i = .init c v) ∨ i = .doneTest ∨ i = .txBegin ∨ i = .classify ∨ i = .bitRound ∨ i = .pairFail ∨
        ∃ c, i = .raiseFailed c)

/-- R43, R46: only an emission (and the copy it is made of) writes `OUT`, and it writes the eight bytes of entry `W.count` only, which lies
below the capacity.  A RUN takes the buffer it is given as it stands; every other instruction leaves `OUT` as it is. -/
def Obligations.OutIsWrittenByEmissionOnly : Prop :=
  ∀ (i : Instr) (s t : State), exec i s = .next t →
    (∀ operands, i = .run operands → t.out = Memory.ofEntries operands.buffer) ∧
    (i ≠ .emit → i ≠ .copy .codeToOut → (∀ operands, i ≠ .run operands) → t.out = s.out) ∧
    (i = .emit ∨ i = .copy .codeToOut →
      s.W.count.toNat < s.capacity.toNat ∧
      ∀ a, a < 8 * s.W.count.toNat ∨ 8 * s.W.count.toNat + 8 ≤ a → t.out.read a = s.out.read a)

/-- R50, R33: the trace only grows, and only by the rows that issue bus primitives; INIT, RUN's acceptance and CHECKSUM issue none. -/
def Obligations.BusEventsComeFromBusRowsOnly : Prop :=
  ∀ (i : Instr) (s t : State), exec i s = .next t →
    (∃ events, t.trace = s.trace ++ events) ∧
    ((t.trace ≠ s.trace ∨ t.bus ≠ s.bus) →
      i = .busReset ∨ (∃ c, i = .busWriteCommand c) ∨ (∃ b, i = .busWriteBit b) ∨ i = .busReadBit ∨ i = .txBegin ∨
        i = .txCmd ∨ i = .readPair ∨ i = .writeBack ∨ i = .bitRound)

/-- R18: within a session the status is monotonic, More to any and Done and Failed terminal: a step that runs no INIT keeps a terminal
status. -/
def Obligations.TerminalStatusIsLeftByInitOnly : Prop :=
  ∀ s t : State, MachineInvariant s → step s = .next t → s.S.status ≠ .more →
    (∀ c v s', fetch s ≠ .instr (.init c v) s') → t.S.status = s.S.status

/-- R37, R13: no dead register of `W` is ever read: two states that differ only in registers dead at their place of the sequencer take
steps that again differ only there; no value of `W` survives the operation that used it. -/
def Obligations.DeadWorkingRegistersAreNeverRead : Prop :=
  ∀ s t : State, s.withoutDead = t.withoutDead → outcomeWithoutDead (step s) = outcomeWithoutDead (step t)

/-! ### A transaction, a RUN, a search -/

/-- R107, R105, R106, R142: against any replies whose pairs are not (1,1), the first `k ≤ 64` rounds of a transaction take their steps and
issue exactly the reset, the command `S.command`, and three events a round, the third the bit that the rules resolve; the bits stand in
`W.code` at their positions; after 64 rounds (194 events) the commit is next; `S` and `OUT` are untouched so far. -/
def Obligations.TransactionIssuesTheListedEvents : Prop :=
  ∀ (rounds : List (Bool × Bool × Bool)) (s : State) (a : Bool) (rest : List Bool),
    rounds.length ≤ 64 → (∀ x ∈ rounds, ¬(x.1 = true ∧ x.2.1 = true)) → s.upc = .txReset → s.port = none →
    s.bus = .script (true :: a :: (rounds.flatMap (fun x => [x.1, x.2.1, x.2.2]) ++ rest)) →
      ∃ (t : State) (bits : List Bool), runSteps (2 + 5 * rounds.length) s = .next t ∧
        bits = rounds.mapIdx (fun i x => resolvedBit s.S s.W.count i x.1 x.2.1) ∧
        t.trace = s.trace ++ [.rst true, .cmd s.S.command] ++
          (List.zip rounds bits).flatMap (fun x => [.rd x.1.1, .rd x.1.2.1, .wr x.2]) ∧
        (∀ i (h : i < bits.length), t.W.code.getLsbD i = bits[i]) ∧
        t.W.i.toNat = rounds.length ∧ t.upc = (if rounds.length = 64 then .commit else .rdP) ∧
        t.S = s.S ∧ t.out = s.out ∧ t.W.count = s.W.count ∧ t.bus = .script rest

/-- R116: RUN refines its listing: whatever a script of replies gives, if the listing ends, the sequencer comes to IDLE with the same `S`,
the same `OUT`, the same trace and the same count returned. -/
def Obligations.RunRefinesTheListing : Prop :=
  ∀ (fuel : Nat) (s : State) (replies : List Bool) (v : RunView),
    s.upc = .check → s.port = none → s.bus = .script replies →
    listRun s.capacity fuel ⟨s.S, 0, s.out, s.trace, replies⟩ = some v →
      ∃ (k : Nat) (t : State), runSteps k s = .next t ∧ t.upc = .idle ∧ t.S = v.S ∧ t.out = v.out ∧ t.trace = v.trace ∧
        t.result = .count v.count ∧ t.bus = .script v.replies ∧ t.program = s.program

/-- R61, R117, R118: on a fixed non-empty device set, the first transaction of a session (zero previous code, sentinel fork position) comes to
the commit with the bit-lexicographically least device's code, and has recorded the highest open fork of that code, or none when no
device lies after it. -/
def Obligations.FirstTransactionFindsTheLeastDevice : Prop :=
  ∀ (s : State) (b : RefBus), s.upc = .txReset → s.port = none → s.bus = .reference b → b.devices ≠ [] →
    b.allParticipate s.S.command → s.S.previousCode = 0 → s.S.previousForkPosition = 64 →
      ∃ (t : State) (b' : RefBus), runSteps 322 s = .next t ∧ t.upc = .commit ∧ t.bus = .reference b' ∧ b'.codes = b.codes ∧
        t.W.code ∈ b.codes ∧ (∀ d ∈ b.codes, d = t.W.code ∨ bitLexLt t.W.code d) ∧
        (t.W.lfValid = true → lastOpenFork b.codes t.W.code t.W.lfPos.toNat) ∧
        (t.W.lfValid = false → ∀ d ∈ b.codes, ¬ bitLexLt t.W.code d)

/-- R118: a transaction that may replay, started from a device's code and the highest open fork of that code, comes to the commit with the
bit-lexicographic successor of that code in the device set, and has recorded the successor's highest open fork, or none when no device
lies after it: the premise of the next transaction, or Done. -/
def Obligations.NextTransactionFindsTheSuccessor : Prop :=
  ∀ (s : State) (b : RefBus), s.upc = .txReset → s.port = none → s.bus = .reference b →
    b.allParticipate s.S.command → (0 < s.W.count.toNat ∨ s.S.isFirstTransaction = false) →
    s.S.previousCode ∈ b.codes → s.S.previousForkPosition.val < 64 →
    lastOpenFork b.codes s.S.previousCode s.S.previousForkPosition.val →
      ∃ (t : State) (b' : RefBus), runSteps 322 s = .next t ∧ t.upc = .commit ∧ t.bus = .reference b' ∧ b'.codes = b.codes ∧
        t.W.code ∈ b.codes ∧ bitLexLt s.S.previousCode t.W.code ∧
        (∀ d ∈ b.codes, bitLexLt s.S.previousCode d → d = t.W.code ∨ bitLexLt t.W.code d) ∧
        (t.W.lfValid = true → lastOpenFork b.codes t.W.code t.W.lfPos.toNat) ∧
        (t.W.lfValid = false → ∀ d ∈ b.codes, ¬ bitLexLt t.W.code d)
end

