-- ==== Sys2Proof/Laws/Memory.lean ====
section
/-! SUPPORT. The laws of `OUT`: every memory operation keeps the canonical form, a read after a write, and what a write leaves
alone. -/

namespace Sys2Proof.Machine

theorem Memory.wf_nil : Memory.wf [] := List.Pairwise.nil

theorem Memory.write_cons (c : Host.Cell) (m : Memory) (a : Nat) (b : Byte) :
    Memory.write (c :: m) a b =
      if a < c.1 then (a, b) :: c :: m else if a = c.1 then (a, b) :: m else c :: Memory.write m a b := rfl

/-- A cell of the memory after a write is the written one or was there before. -/
theorem Memory.mem_write {m : Memory} {a : Nat} {b : Byte} {c : Host.Cell} (h : c ∈ m.write a b) :
    c = (a, b) ∨ c ∈ m := by
  induction m with
  | nil => simpa [Memory.write] using h
  | cons d m ih =>
    rw [Memory.write_cons] at h
    split at h
    · simpa using h
    · split at h
      · rcases List.mem_cons.mp h with rfl | h
        · exact .inl rfl
        · exact .inr (List.mem_cons_of_mem _ h)
      · rcases List.mem_cons.mp h with rfl | h
        · exact .inr (List.mem_cons_self ..)
        · exact (ih h).imp_right (List.mem_cons_of_mem _)

/-- Writing a byte keeps the canonical form. -/
theorem Memory.write_wf {m : Memory} (h : m.wf) (a : Nat) (b : Byte) : (m.write a b).wf := by
  induction m with
  | nil => simp [Memory.write, Memory.wf]
  | cons d m ih =>
    obtain ⟨hd, hm⟩ := List.pairwise_cons.mp h
    rw [Memory.write_cons]
    split
    · rename_i hlt
      refine List.pairwise_cons.mpr ⟨fun x hx => ?_, h⟩
      rcases List.mem_cons.mp hx with rfl | hx
      · exact hlt
      · exact Nat.lt_trans hlt (hd x hx)
    · split
      · rename_i heq
        exact List.pairwise_cons.mpr ⟨fun x hx => heq ▸ hd x hx, hm⟩
      · rename_i hlt hne
        refine List.pairwise_cons.mpr ⟨fun x hx => ?_, ih hm⟩
        rcases Memory.mem_write hx with rfl | hx
        · show d.1 < a
          omega
        · exact hd x hx

theorem Memory.writeBytes_wf {m : Memory} (h : m.wf) (a : Nat) (bs : List Byte) : (m.writeBytes a bs).wf := by
  induction bs generalizing m a with
  | nil => exact h
  | cons b bs ih => exact ih (Memory.write_wf h a b) (a + 1)

/-- Writing an entry of `OUT` keeps the canonical form. -/
theorem Memory.writeEntry_wf {m : Memory} (h : m.wf) (idx : BitVec 16) (v : RomCode) : (m.writeEntry idx v).wf :=
  Memory.writeBytes_wf h _ _

/-- A read after a write to the same address gives the byte written. -/
theorem Memory.read_write_same (m : Memory) (a : Nat) (b : Byte) : (m.write a b).read a = some b := by
  induction m with
  | nil => simp [Memory.write, Memory.read]
  | cons d m ih =>
    rw [Memory.write_cons]
    split
    · simp [Memory.read]
    · split
      · simp [Memory.read]
      · rename_i hlt hne
        have : d.1 ≠ a := fun h => hne h.symm
        simp [Memory.read, this, ih]

/-- A write leaves every other address alone. -/
theorem Memory.read_write_other (m : Memory) {a a' : Nat} (b : Byte) (h : a' ≠ a) :
    (m.write a b).read a' = m.read a' := by
  induction m with
  | nil => simp [Memory.write, Memory.read, Ne.symm h]
  | cons d m ih =>
    rw [Memory.write_cons]
    split
    · simp [Memory.read, Ne.symm h]
    · split
      · rename_i heq
        have : d.1 ≠ a' := fun hd => h (by rw [heq, hd])
        simp [Memory.read, this, Ne.symm h]
      · simp only [Memory.read, ih]

/-- Consecutive bytes written leave every address outside them alone. -/
theorem Memory.read_writeBytes_outside (m : Memory) (a : Nat) (bs : List Byte) {a' : Nat}
    (h : a' < a ∨ a + bs.length ≤ a') : (m.writeBytes a bs).read a' = m.read a' := by
  induction bs generalizing m a with
  | nil => rfl
  | cons b bs ih =>
    simp only [List.length_cons] at h
    rw [Memory.writeBytes, ih _ _ (by omega), Memory.read_write_other _ _ (by omega)]

/-- Consecutive bytes written are read back. -/
theorem Memory.read_writeBytes_inside (m : Memory) (a : Nat) (bs : List Byte) (k : Nat) (h : k < bs.length) :
    (m.writeBytes a bs).read (a + k) = some bs[k] := by
  induction bs generalizing m a k with
  | nil => simp at h
  | cons b bs ih =>
    cases k with
    | zero =>
      rw [Memory.writeBytes, Memory.read_writeBytes_outside _ _ _ (by omega)]
      simpa using Memory.read_write_same m a b
    | succ k =>
      have h' : k < bs.length := by simpa using h
      rw [Memory.writeBytes, show a + (k + 1) = a + 1 + k by omega, ih _ _ k h']
      simp

/-- A read of consecutive bytes: the byte at its place, and none outside. -/
theorem Memory.read_ofBytes (a : Nat) (bs : List Byte) (a' : Nat) :
    (Memory.ofBytes a bs).read a' = if a ≤ a' then bs[a' - a]? else none := by
  induction bs generalizing a with
  | nil => simp [Memory.ofBytes, Memory.read]
  | cons b bs ih =>
    simp only [Memory.ofBytes, Memory.read, ih]
    rcases Nat.lt_trichotomy a' a with h | rfl | h
    · simp [show ¬ a = a' by omega, show ¬ a + 1 ≤ a' by omega, show ¬ a ≤ a' by omega]
    · simp
    · simp [show ¬ a = a' by omega, show a + 1 ≤ a' by omega, show a ≤ a' by omega,
        show a' - a = a' - (a + 1) + 1 by omega]

theorem Memory.addresses_ofBytes (a : Nat) (bs : List Byte) :
    (Memory.ofBytes a bs).addresses = List.range' a bs.length := by
  induction bs generalizing a with
  | nil => rfl
  | cons b bs ih =>
    have h := ih (a + 1)
    simp only [Memory.addresses] at h
    simp [Memory.ofBytes, Memory.addresses, List.range'_succ, h]

/-- Rising addresses are the canonical form. -/
theorem Memory.wf_of_addresses {m : Memory} (h : m.addresses.Pairwise (· < ·)) : m.wf :=
  List.pairwise_map.mp h

theorem romBytes_length (v : RomCode) : (romBytes v).length = 8 := rfl

theorem flatMap_romBytes_length (buffer : List RomCode) : (buffer.flatMap romBytes).length = 8 * buffer.length := by
  induction buffer with
  | nil => rfl
  | cons v buffer ih => simp [ih, romBytes_length]; omega

/-- Byte `k` of entry `j` stands at byte `8j + k` of the buffer. -/
theorem flatMap_romBytes_get (buffer : List RomCode) (j k : Nat) (hj : j < buffer.length) (hk : k < 8) :
    (buffer.flatMap romBytes)[8 * j + k]? = some (romByte buffer[j] k) := by
  induction buffer generalizing j with
  | nil => simp at hj
  | cons v buffer ih =>
    cases j with
    | zero =>
      rw [List.flatMap_cons, List.getElem?_append_left (by rw [romBytes_length]; omega)]
      simp only [List.getElem_cons_zero]
      match k, hk with
      | 0, _ | 1, _ | 2, _ | 3, _ | 4, _ | 5, _ | 6, _ | 7, _ => rfl
    | succ j =>
      rw [List.flatMap_cons, List.getElem?_append_right (by rw [romBytes_length]; omega), romBytes_length,
        show 8 * (j + 1) + k - 8 = 8 * j + k by omega, ih j (by simpa using hj)]
      rfl

/-- The buffer a host hands over has exactly its entries' bytes (R195). -/
theorem Memory.addresses_ofEntries (buffer : List RomCode) :
    (Memory.ofEntries buffer).addresses = List.range (8 * buffer.length) := by
  rw [Memory.ofEntries, Memory.addresses_ofBytes, flatMap_romBytes_length, List.range_eq_range']

theorem Memory.ofEntries_wf (buffer : List RomCode) : (Memory.ofEntries buffer).wf :=
  Memory.wf_of_addresses (by rw [Memory.addresses_ofEntries]; exact List.pairwise_lt_range)

theorem Memory.read_ofEntries (buffer : List RomCode) (j k : Nat) (hj : j < buffer.length) (hk : k < 8) :
    (Memory.ofEntries buffer).read (8 * j + k) = some (romByte buffer[j] k) := by
  rw [Memory.ofEntries, Memory.read_ofBytes, if_pos (Nat.zero_le _), Nat.sub_zero, flatMap_romBytes_get buffer j k hj hk]

theorem Memory.read_ofEntries_beyond (buffer : List RomCode) (a : Nat) (h : 8 * buffer.length ≤ a) :
    (Memory.ofEntries buffer).read a = none := by
  rw [Memory.ofEntries, Memory.read_ofBytes, if_pos (Nat.zero_le _), Nat.sub_zero, List.getElem?_eq_none_iff,
    flatMap_romBytes_length]
  exact h

/-- Writing a byte that is there adds and removes none. -/
theorem Memory.addresses_write {m : Memory} (h : m.wf) {a : Nat} (b : Byte) (ha : a ∈ m.addresses) :
    (m.write a b).addresses = m.addresses := by
  induction m with
  | nil => simp [Memory.addresses] at ha
  | cons d m ih =>
    obtain ⟨hd, hm⟩ := List.pairwise_cons.mp h
    have ha' : a = d.1 ∨ a ∈ Memory.addresses m := by simpa [Memory.addresses] using ha
    rw [Memory.write_cons]
    rcases ha' with rfl | ha'
    · simp [Memory.addresses]
    · have hlt : d.1 < a := by
        obtain ⟨c, hc, rfl⟩ := List.mem_map.mp ha'
        exact hd c hc
      have := ih hm ha'
      simp only [Memory.addresses] at this
      simp [Memory.addresses, show ¬ a < d.1 by omega, show ¬ a = d.1 by omega, this]

theorem Memory.addresses_writeBytes {m : Memory} (h : m.wf) (a : Nat) (bs : List Byte)
    (ha : ∀ k, k < bs.length → a + k ∈ m.addresses) : (m.writeBytes a bs).addresses = m.addresses := by
  induction bs generalizing m a with
  | nil => rfl
  | cons b bs ih =>
    have h0 : a ∈ m.addresses := by simpa using ha 0 (by simp)
    rw [Memory.writeBytes, ih (Memory.write_wf h a b) (a + 1), Memory.addresses_write h b h0]
    intro k hk
    rw [Memory.addresses_write h b h0, show a + 1 + k = a + (k + 1) by omega]
    exact ha (k + 1) (by simpa using hk)

/-- Writing an entry of a buffer of `n` entries leaves it one of `n` entries. -/
theorem Memory.addresses_writeEntry {m : Memory} (h : m.wf) {n : Nat} (hm : m.addresses = List.range (8 * n))
    (idx : BitVec 16) (v : RomCode) (hi : idx.toNat < n) : (m.writeEntry idx v).addresses = List.range (8 * n) := by
  rw [Memory.writeEntry, Memory.addresses_writeBytes h, hm]
  intro k hk
  rw [romBytes_length] at hk
  rw [hm, List.mem_range, entryAddress]
  omega

end Sys2Proof.Machine
end

