-- ==== Sys2Proof/Laws/State.lean ====
section
/-! SUPPORT. One lemma per field and named update of `State`, so that no proof unfolds an update. -/

namespace Sys2Proof.Machine

@[simp] theorem State.goto_S (s : State) (u : MicroPc) : (s.goto u).S = s.S := rfl
@[simp] theorem State.goto_W (s : State) (u : MicroPc) : (s.goto u).W = s.W := rfl
@[simp] theorem State.goto_upc (s : State) (u : MicroPc) : (s.goto u).upc = u := rfl
@[simp] theorem State.goto_capacity (s : State) (u : MicroPc) : (s.goto u).capacity = s.capacity := rfl
@[simp] theorem State.goto_ans (s : State) (u : MicroPc) : (s.goto u).ans = s.ans := rfl
@[simp] theorem State.goto_result (s : State) (u : MicroPc) : (s.goto u).result = s.result := rfl
@[simp] theorem State.goto_out (s : State) (u : MicroPc) : (s.goto u).out = s.out := rfl
@[simp] theorem State.goto_written (s : State) (u : MicroPc) : (s.goto u).written = s.written := rfl
@[simp] theorem State.goto_fnOut (s : State) (u : MicroPc) : (s.goto u).fnOut = s.fnOut := rfl
@[simp] theorem State.goto_bus (s : State) (u : MicroPc) : (s.goto u).bus = s.bus := rfl
@[simp] theorem State.goto_trace (s : State) (u : MicroPc) : (s.goto u).trace = s.trace := rfl
@[simp] theorem State.goto_port (s : State) (u : MicroPc) : (s.goto u).port = s.port := rfl
@[simp] theorem State.goto_program (s : State) (u : MicroPc) : (s.goto u).program = s.program := rfl

@[simp] theorem State.setS_S (s : State) (S' : SearchState) : (s.setS S').S = S' := rfl
@[simp] theorem State.setS_W (s : State) (S' : SearchState) : (s.setS S').W = s.W := rfl
@[simp] theorem State.setS_upc (s : State) (S' : SearchState) : (s.setS S').upc = s.upc := rfl
@[simp] theorem State.setS_capacity (s : State) (S' : SearchState) : (s.setS S').capacity = s.capacity := rfl
@[simp] theorem State.setS_ans (s : State) (S' : SearchState) : (s.setS S').ans = s.ans := rfl
@[simp] theorem State.setS_result (s : State) (S' : SearchState) : (s.setS S').result = s.result := rfl
@[simp] theorem State.setS_out (s : State) (S' : SearchState) : (s.setS S').out = s.out := rfl
@[simp] theorem State.setS_written (s : State) (S' : SearchState) : (s.setS S').written = s.written := rfl
@[simp] theorem State.setS_fnOut (s : State) (S' : SearchState) : (s.setS S').fnOut = s.fnOut := rfl
@[simp] theorem State.setS_bus (s : State) (S' : SearchState) : (s.setS S').bus = s.bus := rfl
@[simp] theorem State.setS_trace (s : State) (S' : SearchState) : (s.setS S').trace = s.trace := rfl
@[simp] theorem State.setS_port (s : State) (S' : SearchState) : (s.setS S').port = s.port := rfl
@[simp] theorem State.setS_program (s : State) (S' : SearchState) : (s.setS S').program = s.program := rfl

@[simp] theorem State.setW_S (s : State) (w : Working) : (s.setW w).S = s.S := rfl
@[simp] theorem State.setW_W (s : State) (w : Working) : (s.setW w).W = w := rfl
@[simp] theorem State.setW_upc (s : State) (w : Working) : (s.setW w).upc = s.upc := rfl
@[simp] theorem State.setW_capacity (s : State) (w : Working) : (s.setW w).capacity = s.capacity := rfl
@[simp] theorem State.setW_ans (s : State) (w : Working) : (s.setW w).ans = s.ans := rfl
@[simp] theorem State.setW_result (s : State) (w : Working) : (s.setW w).result = s.result := rfl
@[simp] theorem State.setW_out (s : State) (w : Working) : (s.setW w).out = s.out := rfl
@[simp] theorem State.setW_written (s : State) (w : Working) : (s.setW w).written = s.written := rfl
@[simp] theorem State.setW_fnOut (s : State) (w : Working) : (s.setW w).fnOut = s.fnOut := rfl
@[simp] theorem State.setW_bus (s : State) (w : Working) : (s.setW w).bus = s.bus := rfl
@[simp] theorem State.setW_trace (s : State) (w : Working) : (s.setW w).trace = s.trace := rfl
@[simp] theorem State.setW_port (s : State) (w : Working) : (s.setW w).port = s.port := rfl
@[simp] theorem State.setW_program (s : State) (w : Working) : (s.setW w).program = s.program := rfl

@[simp] theorem State.giveBack_S (s : State) (r : HostResult) : (s.giveBack r).S = s.S := rfl
@[simp] theorem State.giveBack_W (s : State) (r : HostResult) : (s.giveBack r).W = s.W := rfl
@[simp] theorem State.giveBack_upc (s : State) (r : HostResult) : (s.giveBack r).upc = s.upc := rfl
@[simp] theorem State.giveBack_capacity (s : State) (r : HostResult) : (s.giveBack r).capacity = s.capacity := rfl
@[simp] theorem State.giveBack_ans (s : State) (r : HostResult) : (s.giveBack r).ans = s.ans := rfl
@[simp] theorem State.giveBack_result (s : State) (r : HostResult) : (s.giveBack r).result = r := rfl
@[simp] theorem State.giveBack_out (s : State) (r : HostResult) : (s.giveBack r).out = s.out := rfl
@[simp] theorem State.giveBack_written (s : State) (r : HostResult) : (s.giveBack r).written = s.written := rfl
@[simp] theorem State.giveBack_fnOut (s : State) (r : HostResult) : (s.giveBack r).fnOut = s.fnOut := rfl
@[simp] theorem State.giveBack_bus (s : State) (r : HostResult) : (s.giveBack r).bus = s.bus := rfl
@[simp] theorem State.giveBack_trace (s : State) (r : HostResult) : (s.giveBack r).trace = s.trace := rfl
@[simp] theorem State.giveBack_port (s : State) (r : HostResult) : (s.giveBack r).port = s.port := rfl
@[simp] theorem State.giveBack_program (s : State) (r : HostResult) : (s.giveBack r).program = s.program := rfl

end Sys2Proof.Machine
end

