-- ==== Sys2Proof/Laws/Ops.lean ====
section
/-! SUPPORT. One lemma per shared operation that says everything it can do. -/

namespace Sys2Proof.Machine

/-- A primitive that returned: its answer and the next environment come from the environment; the event joins the trace, the answer
of RESET and READ_BIT stands on `ans`; nothing else changes. -/
theorem issue_eq_some {q : BusPrim} {s s' : State} (h : issue q s = some s') :
    ∃ a bus', s.bus.issue q = some (a, bus') ∧
      s' = { s with bus := bus', trace := s.trace ++ [q.event a], ans := if q.answers then a else s.ans } := by
  unfold issue at h
  split at h
  · cases h
  · rename_i a bus' he
    exact ⟨a, bus', he, (Option.some.inj h).symm⟩

theorem issue_of_returns {q : BusPrim} {s : State} {a : Bool} {bus' : BusEnv} (h : s.bus.issue q = some (a, bus')) :
    issue q s =
      some { s with bus := bus', trace := s.trace ++ [q.event a], ans := if q.answers then a else s.ans } := by
  simp [issue, h]

theorem issue_of_stuck {q : BusPrim} {s : State} (h : s.bus.issue q = none) : issue q s = none := by
  simp [issue, h]

/-- A script answers each primitive with its next reply. -/
@[simp] theorem BusEnv.issue_script_cons (a : Bool) (replies : List Bool) (q : BusPrim) :
    (BusEnv.script (a :: replies)).issue q = some (a, .script replies) := by
  cases q <;> rfl

@[simp] theorem BusEnv.issue_script_nil (q : BusPrim) : (BusEnv.script []).issue q = none := by
  cases q <;> rfl

@[simp] theorem BusEnv.issue_reference (b : RefBus) (q : BusPrim) :
    (BusEnv.reference b).issue q = some (b.answer q, .reference (b.after q)) := by
  cases q <;> rfl

/-- A host operation runs on an idle block and is refused otherwise (R173(b)). -/
theorem whenIdle_idle {s : State} (h : s.upc = .idle) (k : Host.Outcome State Fault Refusal) : whenIdle s k = k := by
  simp [whenIdle, h]

theorem whenIdle_busy {s : State} (h : s.upc ≠ .idle) (k : Host.Outcome State Fault Refusal) :
    whenIdle s k = .refused .operationInProgress := by
  simp [whenIdle, h]

theorem whenIdle_eq_next {s t : State} {k : Host.Outcome State Fault Refusal} (h : whenIdle s k = .next t) :
    s.upc = .idle ∧ k = .next t := by
  unfold whenIdle at h
  split at h
  · exact ⟨‹_›, h⟩
  · cases h

/-- RUN answers a next state on an idle, initialised block only: its operands are held and the sequencer goes to CHECK (R30, R39). -/
theorem execRun_eq_next {operands : RunOperands} {s t : State} (h : execRun operands s = .next t) :
    s.upc = .idle ∧ s.written = true ∧
      t = { s with upc := .check, capacity := operands.capacity, out := Memory.ofEntries operands.buffer, result := .nothing } := by
  obtain ⟨hu, h⟩ := whenIdle_eq_next h
  split at h
  · cases h
    exact ⟨hu, ‹_›, rfl⟩
  · cases h

theorem execRun_of_accepted {s : State} (hu : s.upc = .idle) (hw : s.written = true) (operands : RunOperands) :
    execRun operands s =
      .next { s with
        upc := .check, capacity := operands.capacity, out := Memory.ofEntries operands.buffer, result := .nothing } := by
  rw [execRun, whenIdle_idle hu, if_pos hw]
  rfl

/-- The write of an entry of `OUT` answers a next state only below the capacity, and then changes `OUT` alone. -/
theorem writeOut_eq_next {s t : State} (h : writeOut s = .next t) :
    s.W.count < s.capacity ∧ t = { s with out := s.out.writeEntry s.W.count s.W.code } := by
  unfold writeOut at h
  split at h
  · cases h
    exact ⟨‹_›, rfl⟩
  · cases h

theorem writeOut_of_room {s : State} (h : s.W.count < s.capacity) :
    writeOut s = .next { s with out := s.out.writeEntry s.W.count s.W.code } := by
  simp [writeOut, h]

/-- The failure entry (R164) writes the status and the place, nothing else. -/
theorem raiseFailedOp_eq (c : FailCause) (s : State) :
    raiseFailedOp c s = { s with S := { s.S with status := .failed }, upc := .exit } := rfl

/-- The exit (R115) clears the flag, gives the count back and goes idle. -/
theorem exitOp_eq (s : State) :
    exitOp s =
      { s with S := { s.S with isFirstTransaction := false }, result := .count s.W.count, upc := .idle } := rfl

/-- One checksum computation changes `W.crc` and `W.k` alone (R152). -/
theorem crcCompute_eq (input : List Byte) (s : State) :
    crcCompute input s = { s with W := { s.W with crc := crc8 input, k := BitVec.ofNat 16 input.length } } := rfl

/-- Every arm of fork resolution sets `W.r`, may record the fork, and goes to the write-back (R125). -/
theorem pairForkOp_cases (s : State) :
    (forkArm s = .replay ∧ pairForkOp s = forkReplayOp s) ∨
      (forkArm s = .exhausted ∧ pairForkOp s = forkExhaustedOp s) ∨
        ((forkArm s = .newBarred ∨ forkArm s = .newBeyond) ∧ pairForkOp s = forkNewOp s) := by
  unfold pairForkOp
  cases h : forkArm s <;> simp

end Sys2Proof.Machine
end

