-- ==== Sys2Proof/Laws/PerInstr.lean ====
section
/-! SUPPORT. Statements about every instruction as syntax, one lemma per constructor. -/

namespace Sys2Proof.Laws.SelectorFormat

/-- The encoder puts an instruction on the selector port of its own format, and gives a selector to every instruction but those of
format UOP, which have no code (R70). -/
def Statement (i : Instr) : Prop :=
  (∀ sel, encode i = some sel → sel.format = i.format) ∧ (encode i = none ↔ i.format = .uop)

theorem init (c : Byte) (v : Bool) : Statement (.init c v) :=
  ⟨fun _ h => by cases h; rfl, by simp [encode, Instr.format]⟩

theorem run (r : RunOperands) : Statement (.run r) :=
  ⟨fun _ h => by cases h; rfl, by simp [encode, Instr.format]⟩

theorem checksum (l : List Byte) : Statement (.checksum l) :=
  ⟨fun _ h => by cases h; rfl, by simp [encode, Instr.format]⟩

theorem busReset : Statement .busReset :=
  ⟨fun _ h => by cases h; rfl, by simp [encode, Instr.format]⟩

theorem busWriteCommand (c : Byte) : Statement (.busWriteCommand c) :=
  ⟨fun _ h => by cases h; rfl, by simp [encode, Instr.format]⟩

theorem busWriteBit (b : Bool) : Statement (.busWriteBit b) :=
  ⟨fun _ h => by cases h; rfl, by simp [encode, Instr.format]⟩

theorem busReadBit : Statement .busReadBit :=
  ⟨fun _ h => by cases h; rfl, by simp [encode, Instr.format]⟩

theorem pairFork : Statement .pairFork :=
  ⟨fun _ h => by cases h; rfl, by simp [encode, Instr.format]⟩

theorem pairZero : Statement .pairZero :=
  ⟨fun _ h => by cases h; rfl, by simp [encode, Instr.format]⟩

theorem pairOne : Statement .pairOne :=
  ⟨fun _ h => by cases h; rfl, by simp [encode, Instr.format]⟩

theorem pairFail : Statement .pairFail :=
  ⟨fun _ h => by cases h; rfl, by simp [encode, Instr.format]⟩

theorem forkReplay : Statement .forkReplay :=
  ⟨fun _ h => by cases h; rfl, by simp [encode, Instr.format]⟩

theorem forkExhausted : Statement .forkExhausted :=
  ⟨fun _ h => by cases h; rfl, by simp [encode, Instr.format]⟩

theorem forkNewBarred : Statement .forkNewBarred :=
  ⟨fun _ h => by cases h; rfl, by simp [encode, Instr.format]⟩

theorem forkNewBeyond : Statement .forkNewBeyond :=
  ⟨fun _ h => by cases h; rfl, by simp [encode, Instr.format]⟩

theorem statusTest : Statement .statusTest :=
  ⟨fun _ h => (nomatch h), by simp [encode, Instr.format]⟩

theorem loopTest : Statement .loopTest :=
  ⟨fun _ h => (nomatch h), by simp [encode, Instr.format]⟩

theorem txBegin : Statement .txBegin :=
  ⟨fun _ h => (nomatch h), by simp [encode, Instr.format]⟩

theorem txCmd : Statement .txCmd :=
  ⟨fun _ h => (nomatch h), by simp [encode, Instr.format]⟩

theorem bitRound : Statement .bitRound :=
  ⟨fun _ h => (nomatch h), by simp [encode, Instr.format]⟩

theorem readPair : Statement .readPair :=
  ⟨fun _ h => (nomatch h), by simp [encode, Instr.format]⟩

theorem classify : Statement .classify :=
  ⟨fun _ h => (nomatch h), by simp [encode, Instr.format]⟩

theorem writeBack : Statement .writeBack :=
  ⟨fun _ h => (nomatch h), by simp [encode, Instr.format]⟩

theorem store : Statement .store :=
  ⟨fun _ h => (nomatch h), by simp [encode, Instr.format]⟩

theorem advance : Statement .advance :=
  ⟨fun _ h => (nomatch h), by simp [encode, Instr.format]⟩

theorem commit : Statement .commit :=
  ⟨fun _ h => (nomatch h), by simp [encode, Instr.format]⟩

theorem crcFilter : Statement .crcFilter :=
  ⟨fun _ h => (nomatch h), by simp [encode, Instr.format]⟩

theorem emit : Statement .emit :=
  ⟨fun _ h => (nomatch h), by simp [encode, Instr.format]⟩

theorem doneTest : Statement .doneTest :=
  ⟨fun _ h => (nomatch h), by simp [encode, Instr.format]⟩

theorem saveFork : Statement .saveFork :=
  ⟨fun _ h => (nomatch h), by simp [encode, Instr.format]⟩

theorem exit : Statement .exit :=
  ⟨fun _ h => (nomatch h), by simp [encode, Instr.format]⟩

theorem raiseFailed (c : FailCause) : Statement (.raiseFailed c) :=
  ⟨fun _ h => (nomatch h), by simp [encode, Instr.format]⟩

theorem getBit (v : RomCode) (k : BitVec 6) : Statement (.getBit v k) :=
  ⟨fun _ h => (nomatch h), by simp [encode, Instr.format]⟩

theorem setBit (v : RomCode) (k : BitVec 6) (b : Bool) : Statement (.setBit v k b) :=
  ⟨fun _ h => (nomatch h), by simp [encode, Instr.format]⟩

theorem copy (m : CopyMove) : Statement (.copy m) :=
  ⟨fun _ h => (nomatch h), by simp [encode, Instr.format]⟩

theorem map (x : Byte) : Statement (.map x) :=
  ⟨fun _ h => (nomatch h), by simp [encode, Instr.format]⟩

theorem crc8 (l : List Byte) : Statement (.crc8 l) :=
  ⟨fun _ h => (nomatch h), by simp [encode, Instr.format]⟩

end Sys2Proof.Laws.SelectorFormat
end

