-- ==== Sys2Proof/Laws/Step.lean ====
section
/-! SUPPORT. What a step runs, and how runs of several steps join. -/

namespace Sys2Proof.Machine

/-- With nothing on the port, a step of a busy sequencer is its place's micro-operation. -/
theorem step_of_uop {s : State} {i : Instr} (hp : s.port = none) (hu : s.upc.uop = some i) : step s = exec i s := by
  simp [step, fetch, hp, hu]

/-- What a step that answers a next state did: ran an instruction the fetch found, or nothing but a host's look at `S`. -/
theorem step_eq_next {s t : State} (h : step s = .next t) :
    (∃ i s', fetch s = .instr i s' ∧ exec i s' = .next t) ∨ fetch s = .quiet t := by
  unfold step at h
  split at h
  · exact .inl ⟨_, _, ‹_›, h⟩
  · cases h
    exact .inr ‹_›
  · cases h

/-- Everything the acceptance of a host action can answer. -/
theorem accept_cases (a : HostAction) (s : State) :
    (∃ ports i, a = .operation ports ∧ decode (.op ports) = .instr i ∧ accept a s = .instr i s) ∨
      (∃ f, a = .readField f ∧ s.upc = .idle ∧ accept a s = .quiet (s.giveBack (.field (s.S.readField f)))) ∨
        (∃ r, accept a s = .refused r) := by
  cases a with
  | operation ports =>
    cases h : decode (.op ports) with
    | instr i => exact .inl ⟨ports, i, rfl, h, by simp [accept, h]⟩
    | rejected e => exact .inr (.inr ⟨.undecodable e, by simp [accept, h]⟩)
  | readField f =>
    by_cases h : s.upc = .idle
    · exact .inr (.inl ⟨f, rfl, h, by simp [accept, h]⟩)
    · exact .inr (.inr ⟨.operationInProgress, by simp [accept, h]⟩)
  | writeField f v => exact .inr (.inr ⟨_, rfl⟩)

/-- What the host's OP port decodes to is a host operation, a RUN with a buffer of exactly its capacity (R195). -/
theorem decodeOp_cases {ports : HostPorts} {i : Instr} (h : decode (.op ports) = .instr i) :
    (∃ c v, i = .init c v) ∨ (∃ cap buffer, buffer.length = cap.toNat ∧ i = .run ⟨cap, buffer⟩) ∨ (∃ input, i = .checksum input) := by
  simp only [decode, decodeOp] at h
  split at h
  · exact .inl ⟨_, _, (Decoded.instr.inj h).symm⟩
  · split at h
    · split at h
      · exact .inr (.inl ⟨_, _, by simpa using ‹_›, (Decoded.instr.inj h).symm⟩)
      · cases h
    · split at h
      · split at h
        · exact .inr (.inr ⟨_, (Decoded.instr.inj h).symm⟩)
        · cases h
      · cases h

/-- Everything the fetch can find: a host action taken off the port, the micro-operation of the place, the next action of the waiting
host at IDLE, or nothing at IDLE. -/
theorem fetch_cases (s : State) :
    (∃ a, s.port = some a ∧ fetch s = accept a { s with port := none }) ∨
      (∃ i, s.port = none ∧ s.upc.uop = some i ∧ fetch s = .instr i s) ∨
        (∃ a rest, s.port = none ∧ s.upc = .idle ∧ s.program = a :: rest ∧
          fetch s = accept a { s with program := rest }) ∨
          (s.port = none ∧ s.upc = .idle ∧ s.program = [] ∧ fetch s = .quiet s) := by
  cases hp : s.port with
  | some a => exact .inl ⟨a, rfl, by simp [fetch, hp]⟩
  | none =>
    cases hu : s.upc.uop with
    | some i => exact .inr (.inl ⟨i, rfl, rfl, by simp [fetch, hp, hu]⟩)
    | none =>
      have hidle : s.upc = .idle := by
        cases h : s.upc <;> rw [h] at hu <;> simp [MicroPc.uop] at hu
      cases hq : s.program with
      | nil => exact .inr (.inr (.inr ⟨rfl, hidle, rfl, by simp [fetch, hp, hu, hq]⟩))
      | cons a rest => exact .inr (.inr (.inl ⟨a, rest, rfl, hidle, rfl, by simp [fetch, hp, hu, hq]⟩))

/-- A run of no steps stays where it is. -/
@[simp] theorem runSteps_zero (s : State) : runSteps 0 s = .next s := rfl

/-- A run of `k + 1` steps takes one step and runs on. -/
theorem runSteps_succ {s s' : State} (h : step s = .next s') (k : Nat) : runSteps (k + 1) s = runSteps k s' := by
  simp [runSteps, h]

/-- A run that answers a next state is one step and a shorter run. -/
theorem runSteps_succ_eq_next {k : Nat} {s t : State} (h : runSteps (k + 1) s = .next t) :
    ∃ s', step s = .next s' ∧ runSteps k s' = .next t := by
  unfold runSteps at h
  split at h
  · exact ⟨_, ‹_›, h⟩
  · cases h
  · cases h

/-- Runs join. -/
theorem runSteps_add {j : Nat} {s s' : State} (h : runSteps j s = .next s') (k : Nat) :
    runSteps (j + k) s = runSteps k s' := by
  induction j generalizing s with
  | zero =>
    cases h
    rw [Nat.zero_add]
  | succ j ih =>
    obtain ⟨s1, hs, h1⟩ := runSteps_succ_eq_next h
    rw [Nat.succ_add, runSteps_succ hs, ih h1]

end Sys2Proof.Machine
end

