-- ==== Sys2Proof/Tests/Slice0.lean ====
section
/-! SUPPORT. Tests: decoding of words written out from spec/30_encoding.md (section 1), the well-formedness check (section 2), one step
per test with expected values from spec/95_test_vectors.md (sections 3 to 7, the vector's name in the comment), and for every obligation
with hypotheses a state and operands that meet them (section 8).  Buses are scripts of replies. -/

namespace Sys2Proof.Tests

open Sys2Proof.Machine

/-! ### Helpers -/

/-- The state an instruction leaves, if it leaves one. -/
def after (i : Instr) (s : State) : Option State :=
  match exec i s with
  | .next t => some t
  | .fault _ => none
  | .refused _ => none

/-- The state one step leaves, if it leaves one. -/
def afterStep (s : State) : Option State :=
  match step s with
  | .next t => some t
  | .fault _ => none
  | .refused _ => none

/-- The idle block after `INIT cmd=0xF0, verify=0`. -/
def fresh : State := { State.reset with S := SearchState.initial 0xF0 false, written := true }

/-- A host's buffer of `n` entries, every byte 0xEE. -/
def handed (n : Nat) : List RomCode := List.replicate n 0xEEEEEEEEEEEEEEEE

/-- A RUN of capacity 4 at a place of the sequencer, on a script of replies. -/
def at_ (u : MicroPc) (replies : List Bool) : State :=
  { fresh with upc := u, capacity := 4, out := Memory.ofEntries (handed 4), bus := .script replies }

/-- The entry state of the bit round vectors (section 3.3): `W.i = 5`, bits 0, 1, 4 of the code set. -/
def round5 (replies : List Bool) : State :=
  { at_ .rdP replies with W := { State.reset.W with i := 5, code := 0x13 } }

/-- The entry state of the fork vectors (section 3.4), the pair (0,0) read. -/
def fork (i : BitVec 7) (count : BitVec 16) (first : Bool) (pfp : Fin 65) (previous : RomCode)
    (lf : Option (BitVec 6)) : State :=
  { at_ .resolve [] with
    S := { SearchState.initial 0xF0 false with
      previousCode := previous, previousForkPosition := pfp, isFirstTransaction := first }
    W := { State.reset.W with count := count, i := i, lfValid := lf.isSome, lfPos := lf.getD 0 } }

/-- The entry state of the commit vectors (section 3.6). -/
def commitState (u : MicroPc) (code : RomCode) (count : BitVec 16) (lf : Option (BitVec 6)) (verify : Bool)
    (capacity : BitVec 16) : State :=
  { at_ u [] with
    S := SearchState.initial 0xF0 verify
    capacity := capacity
    out := Memory.ofEntries (handed capacity.toNat)
    W := { State.reset.W with count := count, i := 64, code := code, lfValid := lf.isSome, lfPos := lf.getD 0 } }

/-! ### 1. Decoding (R71, R75, R81, R82) -/

theorem test_decode_init :
    decode (.op ⟨0b00, 0xF0, false, 0, 0, [], []⟩) =
      .instr (.init 0xF0 false) := by decide

/-- R187: the buffer has at least `capacity` entries; the ones beyond are no part of the operation. -/
theorem test_decode_run :
    decode (.op ⟨0b01, 0, false, 2, 0, [], [0x1, 0x2, 0x3]⟩) = .instr (.run ⟨2, [0x1, 0x2]⟩) := by decide

/-- R195. -/
theorem test_decode_run_short :
    decode (.op ⟨0b01, 0, false, 2, 0, [], [0x1]⟩) = .rejected .bufferTooShort := by decide

theorem test_decode_checksum :
    decode (.op ⟨0b10, 0, false, 0, 2, [0x01, 0x5E], []⟩) =
      .instr (.checksum [0x01, 0x5E]) := by decide

/-- V-RS-1. -/
theorem test_decode_reserved :
    decode (.op ⟨0b11, 0xF0, false, 0, 0, [], []⟩) =
      .rejected .reservedOp := by decide

theorem test_decode_busReset : decode (.bus ⟨0b00, 0, false⟩) = .instr .busReset := by decide
theorem test_decode_busWriteCommand : decode (.bus ⟨0b01, 0xF0, false⟩) = .instr (.busWriteCommand 0xF0) := by decide
theorem test_decode_busWriteBit : decode (.bus ⟨0b10, 0, true⟩) = .instr (.busWriteBit true) := by decide
theorem test_decode_busReadBit : decode (.bus ⟨0b11, 0, false⟩) = .instr .busReadBit := by decide
theorem test_decode_pairFork : decode (.pair 0b00) = .instr .pairFork := by decide
theorem test_decode_pairZero : decode (.pair 0b01) = .instr .pairZero := by decide
theorem test_decode_pairOne : decode (.pair 0b10) = .instr .pairOne := by decide
theorem test_decode_pairFail : decode (.pair 0b11) = .instr .pairFail := by decide
theorem test_decode_forkReplay : decode (.forksel 0b110) = .instr .forkReplay := by decide
theorem test_decode_forkExhausted : decode (.forksel 0b101) = .instr .forkExhausted := by decide
theorem test_decode_forkNewBarred : decode (.forksel 0b010) = .instr .forkNewBarred := by decide
theorem test_decode_forkNewBeyond : decode (.forksel 0b100) = .instr .forkNewBeyond := by decide
theorem test_decode_impossible : decode (.forksel 0b011) = .rejected .impossibleForkVector := by decide

/-- The opcode table's OP rows, as the host numbers them. -/
theorem test_table_words :
    decodeTableWord 8 0 = some (.init 0 false) ∧ decodeTableWord 8 1 = some (.run ⟨0, []⟩) ∧
      decodeTableWord 8 2 = some (.checksum []) ∧ decodeTableWord 8 3 = none := by decide

/-! ### 2. Well-formedness -/

/-- The check of CHECKSUM: `n` bytes are well-formed when `n` fits in 16 bits. -/
theorem checksum_replicate_wellFormed (n : Nat) :
    (Instr.checksum (List.replicate n 0)).wellFormed = decide (n < 65536) := by
  show decide ((List.replicate n (0 : Byte)).length < 2 ^ 16) = decide (n < 65536)
  rw [List.length_replicate]
  rfl

/-- 65536 bytes have no 16-bit length: refused. -/
theorem test_checksum_too_long_is_ill_formed : (Instr.checksum (List.replicate 65536 0)).wellFormed = false :=
  (checksum_replicate_wellFormed 65536).trans (by decide)

theorem test_checksum_longest_is_well_formed : (Instr.checksum (List.replicate 65535 0)).wellFormed = true :=
  (checksum_replicate_wellFormed 65535).trans (by decide)

/-- R195: a buffer of another number of entries than `capacity` is refused. -/
theorem test_run_buffer_short_is_ill_formed : (Instr.run ⟨2, [0x1]⟩).wellFormed = false := by decide

theorem test_run_buffer_exact_is_well_formed : (Instr.run ⟨2, [0x1, 0x2]⟩).wellFormed = true := by decide

/-! ### 3. INIT and RUN (sections 3.1 and 3.2) -/

/-- V-INIT-1. -/
theorem test_init :
    (after (.init 0xF0 false) State.reset).map (·.S) =
      some
        { previousCode := 0x0000000000000000, previousForkPosition := 64, command := 0xF0, status := .more
          isFirstTransaction := true, verifyChecksums := false } := by decide

/-- V-INIT-3: over the end state of a search. -/
theorem test_init_over_done :
    (after (.init 0x00 true) { fresh with S := ⟨0x5, 2, 0xEC, .done, false, false⟩ }).map (·.S) =
      some ⟨0x0, 64, 0x00, .more, true, true⟩ := by decide

/-- V-RUN-10. -/
theorem test_run_before_init : exec (.run ⟨1, [0x5]⟩) State.reset = .refused .runBeforeInit := rfl

/-- V-RS-2: a second RUN while one is in progress. -/
theorem test_run_while_busy : exec (.run ⟨1, [0x5]⟩) (at_ .rdP []) = .refused .operationInProgress := rfl

/-- V-RUN-1: a terminal status returns 0 and changes nothing of `S`. -/
theorem test_statusTest_done :
    (after .statusTest { at_ .check [] with S := ⟨0x5, 2, 0xF0, .done, false, false⟩ }).map (fun t => (t.upc, t.result, t.S)) =
      some (.idle, .count 0, ⟨0x5, 2, 0xF0, .done, false, false⟩) := by decide

theorem test_statusTest_more :
    (after .statusTest { at_ .check [] with W := { State.reset.W with count := 9 } }).map (fun t => (t.upc, t.W.count)) =
      some (.loop, 0) := by decide

/-- V-RUN-3: capacity 0 goes to the exit. -/
theorem test_loopTest_zero : (after .loopTest { at_ .loop [] with capacity := 0 }).map (·.upc) = some .exit := by decide
theorem test_loopTest_room : (after .loopTest (at_ .loop [])).map (·.upc) = some .txReset := by decide

/-- V-BUS-1. -/
theorem test_txBegin_presence :
    (after .txBegin { at_ .txReset [true] with W := { State.reset.W with i := 64, code := 7, lfValid := true } }).map
        (fun t => (t.upc, t.W.i, t.W.code, t.W.lfValid, t.trace)) =
      some (.txCmd, 0, 0, false, [.rst true]) := by decide

/-- V-FL-1: no presence. -/
theorem test_txBegin_no_presence :
    (after .txBegin (at_ .txReset [false])).map (fun t => (t.upc, t.S.status, t.S.previousForkPosition, t.trace)) =
      some (.exit, .failed, 64, [.rst false]) := by decide

/-- V-BUS-3: one event for the whole byte. -/
theorem test_txCmd : (after .txCmd (at_ .txCmd [false])).map (fun t => (t.upc, t.trace)) = some (.rdP, [.cmd 0xF0]) := by decide

/-! ### 4. The bit round (sections 3.3 and 3.4) -/

/-- V-BR-1. -/
theorem test_bitRound_zero :
    (after .bitRound (round5 [false, true, false])).map (fun t => (t.trace, t.W.code, t.W.i, t.W.lfValid, t.upc)) =
      some ([.rd false, .rd true, .wr false], 0x0000000000000013, 6, false, .rdP) := by decide

/-- V-BR-4: the pair (1,1), no write. -/
theorem test_bitRound_fail :
    (after .bitRound (round5 [true, true, true])).map (fun t => (t.trace, t.W.i, t.S.status, t.upc)) =
      some ([.rd true, .rd true], 5, .failed, .exit) := by decide

/-- V-BR-2: the first read is `p`. -/
theorem test_readPair :
    (after .readPair (round5 [true, false])).map (fun t => (t.W.p, t.W.n, t.trace, t.upc)) =
      some (true, false, [.rd true, .rd false], .resolve) := by decide

/-- A second read that does not return leaves the engine at RD_N, the first answer kept (R62). -/
theorem test_readPair_stuck :
    (after .readPair (round5 [true])).map (fun t => (t.W.p, t.trace, t.upc)) = some (true, [.rd true], .rdN) := by decide

/-- V-BR-2, classified: ONE. -/
theorem test_classify_one :
    (after .classify { at_ .resolve [] with W := { State.reset.W with p := true, n := false } }).map
        (fun t => (t.W.r, t.W.lfValid, t.upc)) =
      some (true, false, .wrBit) := by decide

/-- V-FK-7 through CLASSIFY: EXHAUSTED at the previous fork position. -/
theorem test_classify_fork :
    (after .classify (fork 7 0 false 7 0 none)).map (fun t => (t.W.r, t.W.lfValid)) = some (true, false) := by decide

/-- V-FK-1. -/
theorem test_pairFork_first :
    (after .pairFork (fork 0 0 true 64 0 none)).map (fun t => (t.W.r, t.W.lfValid, t.W.lfPos)) = some (false, true, 0) := by
  decide

/-- V-FK-10: below the previous fork position, REPLAY barred: NEW although the previous bit is 1. -/
theorem test_pairFork_barred :
    (after .pairFork (fork 3 0 true 7 0x8 none)).map (fun t => (t.W.r, t.W.lfValid, t.W.lfPos)) = some (false, true, 3) := by
  decide

theorem test_pairZero : (after .pairZero (at_ .resolve [])).map (fun t => (t.W.r, t.upc)) = some (false, .wrBit) := by decide
theorem test_pairOne : (after .pairOne (at_ .resolve [])).map (fun t => (t.W.r, t.upc)) = some (true, .wrBit) := by decide
theorem test_pairFail : (after .pairFail (at_ .resolve [])).map (fun t => (t.S.status, t.upc)) = some (.failed, .exit) := by decide

/-- V-FK-4. -/
theorem test_forkReplay_zero :
    (after .forkReplay (fork 3 1 true 7 0 none)).map (fun t => (t.W.r, t.W.lfValid, t.W.lfPos)) = some (false, true, 3) := by
  decide

/-- V-FK-6: a replayed 1 keeps the earlier record. -/
theorem test_forkReplay_one :
    (after .forkReplay (fork 3 0 false 7 0x8 (some 1))).map (fun t => (t.W.r, t.W.lfValid, t.W.lfPos)) =
      some (true, true, 1) := by decide

/-- V-FK-11. -/
theorem test_forkExhausted :
    (after .forkExhausted (fork 7 1 false 7 0 (some 3))).map (fun t => (t.W.r, t.W.lfValid, t.W.lfPos)) =
      some (true, true, 3) := by decide

/-- V-FK-2. -/
theorem test_forkNewBarred :
    (after .forkNewBarred (fork 63 0 true 64 0 none)).map (fun t => (t.W.r, t.W.lfValid, t.W.lfPos)) =
      some (false, true, 63) := by decide

/-- V-FK-12: the later fork overwrites the earlier. -/
theorem test_forkNewBeyond :
    (after .forkNewBeyond (fork 9 1 false 7 0 (some 3))).map (fun t => (t.W.r, t.W.lfValid, t.W.lfPos)) =
      some (false, true, 9) := by decide

/-- V-BUS-5. -/
theorem test_writeBack :
    (after .writeBack { at_ .wrBit [false] with W := { State.reset.W with r := true } }).map (fun t => (t.trace, t.upc)) =
      some ([.wr true], .wrStore) := by decide

/-- V-RC-4. -/
theorem test_store :
    (after .store { round5 [] with W := { (round5 []).W with r := true } }).map (·.W.code) = some 0x0000000000000033 := by
  decide

/-- R131 at the last round. -/
theorem test_advance_last :
    (after .advance { at_ .wrAdvance [] with W := { State.reset.W with i := 63 } }).map (fun t => (t.W.i, t.upc)) =
      some (64, .commit) := by decide

theorem test_advance : (after .advance (round5 [])).map (fun t => (t.W.i, t.upc)) = some (6, .rdP) := by decide

/-! ### 5. Commit, failures, exit (sections 3.6 and 3.7) -/

/-- V-CM-1. -/
theorem test_commit :
    (after .commit (commitState .commit 0x5 0 none false 4)).map (fun t => (t.S.previousCode, t.upc)) =
      some (0x5, .commitFilter) := by decide

/-- V-CM-4: the filter discards. -/
theorem test_crcFilter_discards :
    (after .crcFilter (commitState .commitFilter 0x5 0 (some 2) true 1)).map (fun t => (t.upc, t.W.count, t.W.crc)) =
      some (.commitDone, 0, 0x56) := by decide

/-- V-CM-6: the filter passes. -/
theorem test_crcFilter_passes :
    (after .crcFilter (commitState .commitFilter 0xA200000001B81C02 3 (some 63) true 4)).map (·.upc) =
      some .commitEmit := by decide

/-- R73, R39: a RUN works on the buffer it is given, whatever an earlier one left. -/
theorem test_run_takes_its_buffer :
    (after (.run ⟨2, [0x0807060504030201, 0x5]⟩) { fresh with out := Memory.ofEntries [0x77] }).map
        (fun t => (t.out.entryBytes 0, t.out.read 8, t.out.read 16)) =
      some ([some 1, some 2, some 3, some 4, some 5, some 6, some 7, some 8], some 5, none) := by decide

/-- V-RC-7: the memory image of an entry; the next entry keeps what the host had there (R43). -/
theorem test_emit :
    (after .emit (commitState .commitEmit 0xA200000001B81C02 0 none true 2)).map (fun t => (t.W.count, t.out)) =
      some (1, [(0, 0x02), (1, 0x1C), (2, 0xB8), (3, 0x01), (4, 0x00), (5, 0x00), (6, 0x00), (7, 0xA2),
        (8, 0xEE), (9, 0xEE), (10, 0xEE), (11, 0xEE), (12, 0xEE), (13, 0xEE), (14, 0xEE), (15, 0xEE)]) := by decide

/-- R195: no entry at the capacity. -/
theorem test_emit_beyond_capacity :
    exec .emit (commitState .commitEmit 0x5 4 none false 4) = .fault (.outEntryAbsent 4) := rfl

/-- V-CM-5: Done. -/
theorem test_doneTest_done :
    (after .doneTest (commitState .commitDone 0x5 3 none true 4)).map (fun t => (t.S.status, t.S.previousForkPosition, t.upc)) =
      some (.done, 64, .exit) := by decide

theorem test_doneTest_fork :
    (after .doneTest (commitState .commitDone 0x5 1 (some 2) true 4)).map (fun t => (t.S.status, t.upc)) =
      some (.more, .commitSave) := by decide

/-- V-CM-6. -/
theorem test_saveFork :
    (after .saveFork (commitState .commitSave 0x5 4 (some 63) true 4)).map
        (fun t => (t.S.previousForkPosition, t.S.status, t.upc)) =
      some (63, .more, .loop) := by decide

/-- V-FL-4: the count of a failing RUN, and the flag cleared. -/
theorem test_exit :
    (after .exit { at_ .exit [] with W := { State.reset.W with count := 2 } }).map
        (fun t => (t.result, t.S.isFirstTransaction, t.upc)) =
      some (.count 2, false, .idle) := by decide

theorem test_raiseFailed :
    (after (.raiseFailed .noPresence) (at_ .txReset [])).map (fun t => (t.S.status, t.S.isFirstTransaction, t.upc)) =
      some (.failed, true, .exit) := by decide

/-! ### 6. Accessors, checksum, primitives (sections 2.1, 3.5, 3.8) -/

theorem test_getBit_10 : (after (.getBit 0xA200000001B81C02 10) fresh).map (·.fnOut) = some 1 := by decide
theorem test_getBit_56 : (after (.getBit 0xA200000001B81C02 56) fresh).map (·.fnOut) = some 0 := by decide

/-- V-RC-2. -/
theorem test_setBit_63 : (after (.setBit 0 63 true) fresh).map (·.fnOut) = some 0x8000000000000000 := by decide

/-- V-RC-6. -/
theorem test_setBit_clear :
    (after (.setBit 0xFFFFFFFFFFFFFFFF 32 false) fresh).map (·.fnOut) = some 0xFFFFFFFEFFFFFFFF := by decide

theorem test_copy_to_previous :
    (after (.copy .codeToPrevious) (commitState .commit 0x5 0 none false 4)).map (·.S.previousCode) = some 0x5 := by decide

theorem test_copy_to_out :
    (after (.copy .codeToOut) (commitState .commit 0x0100000000000000 1 none false 2)).map (·.out) =
      some [(0, 0xEE), (1, 0xEE), (2, 0xEE), (3, 0xEE), (4, 0xEE), (5, 0xEE), (6, 0xEE), (7, 0xEE),
        (8, 0x00), (9, 0x00), (10, 0x00), (11, 0x00), (12, 0x00), (13, 0x00), (14, 0x00), (15, 0x01)] := by decide

theorem test_map_FF : (after (.map 0xFF) fresh).map (·.fnOut) = some 0x35 := by decide
theorem test_map_A2 : (after (.map 0xA2) fresh).map (·.fnOut) = some 0x13 := by decide

theorem test_crc8_ascii :
    (after (.crc8 [0x31, 0x32, 0x33, 0x34, 0x35, 0x36, 0x37, 0x38, 0x39]) fresh).map (·.W.crc) = some 0xA1 := by decide

theorem test_crc8_flipped :
    (after (.crc8 [0x28, 0xFF, 0x5B, 0x12, 0x34, 0x56, 0x78, 0x49]) fresh).map (·.W.crc) = some 0x5B := by decide

theorem test_checksum_valid :
    (after (.checksum [0x02, 0x1C, 0xB8, 0x01, 0x00, 0x00, 0x00, 0xA2]) State.reset).map (·.result) = some (.byte 0x00) := by
  decide

/-- V-RS-5. -/
theorem test_checksum_empty : (after (.checksum []) fresh).map (·.result) = some (.byte 0x00) := by decide

/-- V-BUS-2. -/
theorem test_busReset :
    (after .busReset (at_ .txReset [false])).map (fun t => (t.ans, t.trace, t.upc)) = some (false, [.rst false], .txReset) := by
  decide

theorem test_busWriteCommand :
    (after (.busWriteCommand 0xEC) (at_ .txCmd [true])).map (fun t => (t.ans, t.trace)) = some (false, [.cmd 0xEC]) := by decide

theorem test_busWriteBit :
    (after (.busWriteBit true) (at_ .wrBit [false])).map (fun t => (t.ans, t.trace)) = some (false, [.wr true]) := by decide

/-- Section 3.8: devices 0x0, 0x1, 0x5 at position 0, second read: a fork. -/
theorem test_busReadBit :
    (after .busReadBit
        { at_ .rdN [] with
          bus := .reference ⟨[⟨0x0, true, []⟩, ⟨0x1, true, []⟩, ⟨0x5, true, []⟩], 0, true⟩ }).map (·.ans) =
      some false := by decide

/-- Section 3.8: after `WR(1)` the device 0x0 is out and the position is 1. -/
theorem test_reference_write :
    (RefBus.after ⟨[⟨0x0, true, []⟩, ⟨0x1, true, []⟩, ⟨0x5, true, []⟩], 0, true⟩ (.writeBit true)) =
      ⟨[⟨0x0, false, []⟩, ⟨0x1, true, []⟩, ⟨0x5, true, []⟩], 1, false⟩ := by decide

/-! ### 7. The step and the host (section 3.9) -/

theorem test_step_reserved : step (State.reset.withFetchWord 8 3) = .refused (.undecodable .reservedOp) := rfl

theorem test_step_init : (afterStep (State.reset.withFetchWord 8 0)).map (·.written) = some true := by decide

/-- V-RS-4. -/
theorem test_step_host_write :
    step { fresh with port := some (.writeField .status 0) } = .refused .hostWrite := rfl

theorem test_step_host_read :
    (afterStep { fresh with port := some (.readField .previousForkPosition) }).map (·.result) = some (.field 64) := by decide

/-- V-RUN-3: INIT, then RUN with capacity 0: five steps. -/
theorem test_run_capacity_zero :
    (match runSteps 5 { State.reset with program := [hostInit 0xF0 false, hostRun 0 [0x5]] } with
      | .next t => some (t.result, t.S, t.trace)
      | .fault _ => none
      | .refused _ => none) =
      some (.count 0, ⟨0, 64, 0xF0, .more, false, false⟩, []) := by decide

/-! ### 8. Witnesses: what meets the hypotheses of each obligation -/

/-- Ports of a CHECKSUM of two bytes. -/
def checksumPorts : HostPorts := { HostPorts.bare 0b10 with length := 2, input := [0x01, 0x5E] }

/-- Ports of a RUN of capacity 1. -/
def runPorts : HostPorts := { HostPorts.bare 0b01 with capacity := 1, buffer := [0x5] }

theorem witness_OpPortSelectsTheHostOperation :
    (HostPorts.bare 0b00).op = 0b00 ∧
      (runPorts.op = 0b01 ∧ runPorts.capacity.toNat ≤ runPorts.buffer.length) ∧
      (checksumPorts.op = 0b10 ∧ checksumPorts.length.toNat ≤ checksumPorts.input.length) ∧
      (HostPorts.bare 0b11).op = 0b11 := by decide

theorem witness_DecodeOfEncodeIsTheInstruction :
    (Instr.checksum [0x01, 0x5E]).wellFormed = true ∧ encode (.checksum [0x01, 0x5E]) = some (.op checksumPorts) ∧
      (Instr.run ⟨1, [0x5]⟩).wellFormed = true ∧ encode (.run ⟨1, [0x5]⟩) = some (.op runPorts) := by decide

theorem witness_DecodedInstructionsAreWellFormed : decode (.op checksumPorts) = .instr (.checksum [0x01, 0x5E]) := by decide

theorem witness_StepRunsTheFetchedInstruction_port :
    (State.reset.present (HostPorts.bare 0b00)).port = some (.operation (HostPorts.bare 0b00)) ∧
      decode (.op (HostPorts.bare 0b00)) = .instr (.init 0 false) := by decide

theorem witness_StepRunsTheFetchedInstruction_place : (at_ .commitSave []).port = none ∧ (at_ .commitSave []).upc = .commitSave := by
  decide

theorem witness_StepRunsTheFetchedInstruction_program :
    let s := { fresh with program := [.operation runPorts] }
    s.port = none ∧ s.upc = .idle ∧ s.program = .operation runPorts :: [] ∧ decode (.op runPorts) = .instr (.run ⟨1, [0x5]⟩) := by
  decide

theorem witness_StepRunsTheFetchedInstruction_quiet : fresh.port = none ∧ fresh.upc = .idle ∧ fresh.program = [] := by decide

theorem witness_ForbiddenUsesAreRefused :
    (let s := State.reset.present (HostPorts.bare 0b11)
     (HostPorts.bare 0b11).op = 0b11 ∧ s.port = some (.operation (HostPorts.bare 0b11))) ∧
    (let s := { at_ .check [] with port := some (.operation (HostPorts.bare 0b00)) }
     s.upc ≠ .idle ∧ s.port = some (.operation (HostPorts.bare 0b00))) ∧
    (State.reset.upc = .idle ∧ State.reset.written = false) ∧
    ({ fresh with port := some (.writeField .command 1) }.port = some (.writeField .command 1)) := by decide

theorem witness_HostReadsSWhenIdle :
    (let s := { fresh with port := some (.readField .status) }
     s.port = some (.readField .status) ∧ s.upc = .idle) ∧
    (let s := { at_ .exit [] with port := some (.readField .status) }
     s.port = some (.readField .status) ∧ s.upc ≠ .idle) := by decide

theorem witness_InitResetsTheBank : State.reset.upc = .idle := by decide

theorem witness_InitThenRunWithCapacityZero :
    let s := { State.reset with program := [hostInit 0xF0 false, hostRun 0 [0x5]] }
    s.upc = .idle ∧ s.port = none ∧ s.program = hostInit 0xF0 false :: hostRun 0 [0x5] :: [] := by decide

/-- Byte 7 of the last entry of two; the first byte beyond them. -/
theorem witness_RunIsAccepted :
    fresh.upc = .idle ∧ fresh.written = true ∧ 1 < (handed 2).length ∧ 7 < 8 ∧ 8 * (handed 2).length ≤ 16 := by decide

theorem witness_StatusTestGuardsTheRun :
    { fresh with S := { fresh.S with status := .failed } }.S.status ≠ .more ∧ fresh.S.status = .more := by decide

/-- The idle block after a search that ended Done. -/
def ended : State := { fresh with S := ⟨0x5, 2, 0xF0, .done, false, false⟩ }

theorem witness_RunOnTerminalStatusReturnsZero :
    ended.upc = .idle ∧ ended.written = true ∧ ended.port = none ∧ ended.S.status ≠ .more := by decide

/-- Both sides of the comparison: count 3 and count 4 against capacity 4; and capacity 0 from the status test. -/
theorem witness_LoopTestComparesCountWithCapacity :
    (let s := { at_ .check [] with capacity := 0 }
     s.S.status = .more ∧ s.capacity = 0 ∧ s.upc = .check ∧ s.port = none) ∧
    (let s := commitState .loop 0 3 none false 4; s.W.count.toNat < s.capacity.toNat) ∧
    (let s := commitState .loop 0 4 none false 4; s.capacity.toNat ≤ s.W.count.toNat) := by decide

theorem witness_TransactionBeginsWithReset :
    (at_ .txReset [true]).bus.issue .reset = some (true, .script []) ∧
      (at_ .txReset [false]).bus.issue .reset = some (false, .script []) := by decide

theorem witness_NoPresenceEndsTheRun :
    let s := at_ .txReset [false]
    s.bus.issue .reset = some (false, .script []) ∧ s.upc = .txReset ∧ s.port = none := by decide

theorem witness_CommandPhaseSendsTheCommand :
    (at_ .txCmd [true]).bus.issue (.writeCommand (at_ .txCmd [true]).S.command) = some (true, .script []) ∧
    (let s := at_ .txReset [true, false]
     s.upc = .txReset ∧ s.port = none ∧ s.bus.issue .reset = some (true, .script [false]) ∧
       (BusEnv.script [false]).issue (.writeCommand s.S.command) = some (false, .script [])) := by decide

theorem witness_FilterPassesOnZeroChecksum :
    (commitState .commitFilter 0x5 0 none false 4).S.verifyChecksums = false ∧
      (commitState .commitFilter 0x5 0 none true 4).S.verifyChecksums = true := by decide

/-- The last entry; the bytes just below it and just above it are outside. -/
theorem witness_EmitWritesOneEntry :
    let s := commitState .commitEmit 0x5 3 none false 4
    s.W.count.toNat < s.capacity.toNat ∧ 7 < 8 ∧ 23 < 8 * s.W.count.toNat ∧ 8 * s.W.count.toNat + 8 ≤ 32 := by decide

theorem witness_EntryBeyondCapacityFaults :
    (let s := commitState .commitEmit 0x5 4 none false 4
     s.capacity.toNat ≤ s.W.count.toNat) ∧
    (let h := { runPorts with capacity := 2 }
     h.op = 0b01 ∧ h.buffer.length < h.capacity.toNat) := by decide

theorem witness_DoneWhenNoForkRecorded_done : (commitState .commitDone 0x5 1 none false 4).W.lfValid = false := by decide

theorem witness_DoneWhenNoForkRecorded_emit : (after .emit (commitState .commitEmit 0x5 3 none false 4)).isSome = true := by
  decide

theorem witness_DoneWhenNoForkRecorded_discard :
    let s := commitState .commitFilter 0x5 0 none true 4
    s.S.verifyChecksums = true ∧ crc8 (romBytes s.W.code) ≠ 0x00 := by decide

theorem witness_SavedForkPositionIsTheRecord : (commitState .commitDone 0x5 1 (some 63) false 4).W.lfValid = true := by decide

theorem witness_EveryRunLeavesThroughTheExit :
    (at_ .exit []).upc ≠ .idle ∧ (after .exit (at_ .exit [])).map (·.upc) = some .idle := by decide

theorem witness_ReadPairTakesTheTrueBitFirst :
    let s := at_ .rdP [true, false]
    s.upc ≠ .rdN ∧ s.bus.issue .readBit = some (true, .script [false]) ∧
      (BusEnv.script [false]).issue .readBit = some (false, .script []) := by decide

/-- The fork state with another pair. -/
def paired (p n : Bool) : State := { at_ .resolve [] with W := { State.reset.W with p := p, n := n } }

theorem witness_AgreedBitIsAdopted :
    (paired true false).W.p ≠ (paired true false).W.n ∧ (paired false true).W.p ≠ (paired false true).W.n := by decide

theorem witness_FailingPairEndsTheRun :
    let s := paired true true
    s.W.p = true ∧ s.W.n = true ∧ s.upc = .resolve ∧ s.port = none := by decide

theorem witness_RaiseFailedEntryAndExit : (at_ .resolve []).port = none := by decide

/-- Just below the previous fork position: a 1 and a 0 to replay, with `W.count > 0` and with the flag clear. -/
theorem witness_ReplayRepeatsThePreviousBit :
    (let s := fork 6 1 true 7 0x40 none
     s.W.i.toNat < 64 ∧ 0 < s.W.count.toNat ∧ s.W.i.toNat < s.S.previousForkPosition.val ∧
       s.S.previousCode.getLsbD s.W.i.toNat = true) ∧
    (let s := fork 63 0 false 64 0 none
     s.W.i.toNat < 64 ∧ s.S.isFirstTransaction = false ∧ s.W.i.toNat < s.S.previousForkPosition.val ∧
       s.S.previousCode.getLsbD s.W.i.toNat = false) := by decide

theorem witness_ExhaustedForkForcesOne :
    let s := fork 63 0 true 63 0 none
    s.W.i.toNat = s.S.previousForkPosition.val := by decide

/-- Just beyond, and just below with REPLAY barred. -/
theorem witness_NewForkTakesZeroAndIsRecorded :
    (let s := fork 8 0 true 7 0 none
     s.W.i.toNat < 64 ∧ s.S.previousForkPosition.val < s.W.i.toNat) ∧
    (let s := fork 63 0 true 64 0 none
     s.W.i.toNat < 64 ∧ s.W.i.toNat < s.S.previousForkPosition.val ∧ s.W.count.toNat = 0 ∧
       s.S.isFirstTransaction = true) := by decide

theorem witness_FirstFlagIsRedundantBeforeAnyFork :
    let s := fork 63 2 true 64 0 none
    s.S.previousCode = 0 ∧ s.S.previousForkPosition = 64 ∧ s.W.i.toNat < 64 := by decide

theorem witness_WriteBackDrivesTheResolvedBit :
    (at_ .wrBit [true]).bus.issue (.writeBit (at_ .wrBit [true]).W.r) = some (true, .script []) := by decide

theorem witness_StoreWritesBitI : (fork 63 0 true 64 0 none).W.i.toNat < 64 ∧ 63 < 64 := by decide

/-- The last round and the one before. -/
theorem witness_AdvanceByOneToRoundOrCommit :
    (fork 63 0 true 64 0 none).W.i.toNat < 64 ∧ (fork 62 0 true 64 0 none).W.i.toNat < 64 := by decide

/-- A forking round at position 63, and a failing one. -/
theorem witness_BitRoundIsItsMicroOperations :
    (let s := { fork 63 0 true 64 0 none with upc := .rdP, bus := .script [false, false, true] }
     s.upc = .rdP ∧ s.port = none ∧ s.W.i.toNat < 64 ∧ s.bus.issue .readBit = some (false, .script [false, true]) ∧
       (BusEnv.script [false, true]).issue .readBit = some (false, .script [true]) ∧
       (BusEnv.script [true]).issue (.writeBit (resolvedBit s.S s.W.count s.W.i.toNat false false)) =
         some (true, .script [])) ∧
    (let s := at_ .rdP [true, true]
     s.upc = .rdP ∧ s.port = none ∧ s.W.i.toNat < 64 ∧ s.bus.issue .readBit = some (true, .script [true]) ∧
       (BusEnv.script [true]).issue .readBit = some (true, .script [])) := by decide

theorem witness_BusPrimitivesCompleteWithOneEvent :
    (at_ .idle [true]).bus.issue .reset = some (true, .script []) ∧
      (at_ .idle [true]).bus.issue (.writeCommand 0xEC) = some (true, .script []) ∧
      (at_ .idle [true]).bus.issue (.writeBit true) = some (true, .script []) ∧
      (at_ .idle [true]).bus.issue .readBit = some (true, .script []) := by decide

/-- Every place that issues a primitive. -/
theorem witness_StuckPrimitiveHoldsThePhase :
    (stuck (at_ .txReset []) ∧ stuck (at_ .txCmd []) ∧ stuck (at_ .rdP []) ∧ stuck (at_ .rdN []) ∧ stuck (at_ .wrBit [])) ∧
      (at_ .rdP []).port = none := ⟨⟨rfl, rfl, rfl, rfl, rfl⟩, rfl⟩

theorem witness_CopyMovesWholeCodes :
    let s := commitState .commitEmit 0x5 3 none false 4
    s.W.count.toNat < s.capacity.toNat ∧ 23 < 8 * s.W.count.toNat ∧ 8 * s.W.count.toNat + 8 ≤ 32 := by decide

theorem witness_ChecksumReturnsTheCrc : fresh.upc = .idle ∧ State.reset.upc = .idle := by decide

theorem witness_ChecksumIsLinear : [0x01, 0x5E].length = ([0x02, 0xBC] : List Byte).length := by decide

theorem witness_CheckByteIsUniqueAndFlipsAreFound :
    1 < ([0x01, 0x5E] : List Byte).length ∧ 7 < 8 ∧ crc8 [0x01, 0x5E] = 0x00 := by decide

/-- A state inside the first round of a transaction, the pair (0,0) to be classified. -/
theorem witness_MachineInvariant : MachineInvariant (fork 0 0 true 64 0 none) where
  memory := by decide
  buffer := by decide
  written := by decide
  status := by decide
  roomLeft := by decide
  countWithin := by decide
  start := by decide
  round := by decide
  complete := by decide
  record := nofun
  copied := by decide
  saving := by decide
  forkPoint := by decide
  noHistory := by decide

theorem witness_EveryStepKeepsTheMachineInvariant :
    MachineInvariant (fork 0 0 true 64 0 none) ∧ ∃ t, step (fork 0 0 true 64 0 none) = .next t :=
  ⟨witness_MachineInvariant, _, rfl⟩

theorem witness_NoStepFaultsUnderTheInvariant : MachineInvariant (fork 0 0 true 64 0 none) := witness_MachineInvariant

/-- One instruction for each field. -/
theorem witness_FieldsOfSHaveTheirWritersOnly :
    (after (.init 0xEC true) fresh).map (fun t => (t.S.command, t.S.verifyChecksums)) = some (0xEC, true) ∧
      (after .commit (commitState .commit 0x5 0 none false 4)).map (·.S.previousCode) = some 0x5 ∧
      (after .saveFork (commitState .commitSave 0x5 1 (some 2) false 4)).map (·.S.previousForkPosition) = some 2 ∧
      (after .exit (at_ .exit [])).map (·.S.isFirstTransaction) = some false ∧
      (after .doneTest (commitState .commitDone 0x5 1 none false 4)).map (·.S.status) = some .done := by decide

theorem witness_OutIsWrittenByEmissionOnly :
    (after .emit (commitState .commitEmit 0x5 1 none false 2)).map (fun t => (t.out.read 7, t.out.read 8)) =
        some (some 0xEE, some 0x05) ∧
      (after (.run ⟨1, [0x5]⟩) fresh).map (fun t => t.out.read 0) = some (some 0x05) ∧
      (after .store (at_ .wrStore [])).map (·.out) = some (at_ .wrStore []).out := by decide

theorem witness_BusEventsComeFromBusRowsOnly :
    (after .txCmd (at_ .txCmd [true])).map (·.trace) = some [.cmd 0xF0] ∧ (at_ .txCmd [true]).trace = [] := by decide

theorem witness_TerminalStatusIsLeftByInitOnly :
    MachineInvariant ended ∧ step ended = .next ended ∧ ended.S.status ≠ .more ∧
      ∀ c v s', fetch ended ≠ .instr (.init c v) s' := by
  refine ⟨?_, rfl, by decide, fun c v s' h => by cases h⟩
  exact
    { memory := List.Pairwise.nil, buffer := rfl, written := by decide, status := by decide, roomLeft := by decide
      countWithin := by decide, start := by decide, round := by decide, complete := by decide, record := trivial
      copied := by decide, saving := by decide, forkPoint := by decide, noHistory := by decide }

/-- Two states that differ in dead registers only: at a transaction's begin everything but the count is dead. -/
theorem witness_DeadWorkingRegistersAreNeverRead :
    let s := at_ .txReset [true]
    let t := { at_ .txReset [true] with W := ⟨0, 64, 0xFF, true, 9, true, true, true, 0x35, 8⟩ }
    s ≠ t ∧ s.withoutDead = t.withoutDead := by decide

/-- 64 rounds that read (0,1). -/
def zeroRounds : List (Bool × Bool × Bool) := List.replicate 64 (false, true, false)

theorem witness_TransactionIssuesTheListedEvents :
    let s := at_ .txReset (true :: false :: (zeroRounds.flatMap (fun x => [x.1, x.2.1, x.2.2]) ++ []))
    zeroRounds.length ≤ 64 ∧ (∀ x ∈ zeroRounds, ¬(x.1 = true ∧ x.2.1 = true)) ∧ s.upc = .txReset ∧ s.port = none ∧
      s.bus = .script (true :: false :: (zeroRounds.flatMap (fun x => [x.1, x.2.1, x.2.2]) ++ [])) := by
  refine ⟨by decide, ?_, rfl, rfl, rfl⟩
  intro x hx
  rw [List.eq_of_mem_replicate hx]
  decide

/-- No presence on the first reset. -/
theorem witness_RunRefinesTheListing :
    let s := at_ .check [false]
    s.upc = .check ∧ s.port = none ∧ s.bus = .script [false] ∧
      listRun s.capacity 1 ⟨s.S, 0, s.out, s.trace, [false]⟩ =
        some ⟨{ s.S with status := .failed, isFirstTransaction := false }, 0, s.out, [.rst false], []⟩ := by decide

/-- Two devices that differ in bit 0. -/
def twoDevices : RefBus := ⟨[⟨0x1, false, []⟩, ⟨0x0, false, []⟩], 0, false⟩

theorem witness_FirstTransactionFindsTheLeastDevice :
    let s := { at_ .txReset [] with bus := .reference twoDevices }
    s.upc = .txReset ∧ s.port = none ∧ s.bus = .reference twoDevices ∧ twoDevices.devices ≠ [] ∧
      twoDevices.allParticipate s.S.command ∧ s.S.previousCode = 0 ∧ s.S.previousForkPosition = 64 := by
  refine ⟨rfl, rfl, rfl, by decide, ?_, rfl, rfl⟩
  show ∀ d ∈ twoDevices.devices, d.participates 0xF0 = true
  decide

/-- The state the first transaction leaves: code 0, its fork at 0. -/
theorem witness_NextTransactionFindsTheSuccessor :
    let s := { fork 0 1 true 0 0 none with upc := .txReset, bus := .reference twoDevices }
    s.upc = .txReset ∧ s.port = none ∧ s.bus = .reference twoDevices ∧ twoDevices.allParticipate s.S.command ∧
      (0 < s.W.count.toNat ∨ s.S.isFirstTransaction = false) ∧ s.S.previousCode ∈ twoDevices.codes ∧
      s.S.previousForkPosition.val < 64 ∧ lastOpenFork twoDevices.codes s.S.previousCode s.S.previousForkPosition.val := by
  refine ⟨rfl, rfl, rfl, ?_, by decide, by decide, by decide, ⟨0x1, by decide, nofun, by decide, by decide⟩, ?_⟩
  · show ∀ d ∈ twoDevices.devices, d.participates 0xF0 = true
    decide
  · rintro j hj ⟨d, hd, hbelow, hone, -⟩
    have hd : d = 0x1 ∨ d = 0x0 := by simpa [twoDevices, RefBus.codes] using hd
    have hj : 0 < j := hj
    rcases hd with rfl | rfl
    · exact absurd (hbelow 0 hj) (by decide)
    · simp at hone

end Sys2Proof.Tests
end

section
/-! The host operations on an idle block, and the statements of family 10_state: INIT resets the bank, and a terminal status is left
by INIT only (R35, R18). -/

namespace Sys2Proof.Machine

/-! ### What a step has fetched -/

/-- An accepted host action that gives an instruction is an operation the host's port decodes, and leaves the state alone. -/
theorem accept_eq_instr {a : HostAction} {s s' : State} {i : Instr} (h : accept a s = .instr i s') :
    s' = s ∧ ∃ ports, decode (.op ports) = .instr i := by
  rcases accept_cases a s with ⟨ports, j, -, hd, ha⟩ | ⟨f, -, -, ha⟩ | ⟨r, ha⟩ <;> rw [ha] at h
  · cases h
    exact ⟨rfl, ports, hd⟩
  · cases h
  · cases h

/-- An accepted host action that gives no instruction is a host read: it gives a value back and changes nothing else. -/
theorem accept_eq_quiet {a : HostAction} {s t : State} (h : accept a s = .quiet t) :
    s.upc = .idle ∧ ∃ f, t = s.giveBack (.field (s.S.readField f)) := by
  rcases accept_cases a s with ⟨ports, j, -, -, ha⟩ | ⟨f, -, hu, ha⟩ | ⟨r, ha⟩ <;> rw [ha] at h
  · cases h
  · cases h
    exact ⟨hu, f, rfl⟩
  · cases h

/-- An instruction is fetched from the place of the sequencer or from the host, on a state that differs from the one before in the
pending host actions alone. -/
theorem fetch_eq_instr {s s' : State} {i : Instr} (h : fetch s = .instr i s') :
    s' = { s with port := s'.port, program := s'.program } ∧
      (s.upc.uop = some i ∨ ∃ ports, decode (.op ports) = .instr i) := by
  rcases fetch_cases s with ⟨a, -, hf⟩ | ⟨j, -, hu, hf⟩ | ⟨a, rest, -, -, -, hf⟩ | ⟨-, -, -, hf⟩ <;> rw [hf] at h
  · obtain ⟨rfl, hd⟩ := accept_eq_instr h
    exact ⟨rfl, .inr hd⟩
  · cases h
    exact ⟨rfl, .inl hu⟩
  · obtain ⟨rfl, hd⟩ := accept_eq_instr h
    exact ⟨rfl, .inr hd⟩
  · cases h

/-- A step without an instruction changes what was given back and the pending host actions alone. -/
theorem fetch_eq_quiet {s t : State} (h : fetch s = .quiet t) :
    t = { s with result := t.result, port := t.port, program := t.program } := by
  rcases fetch_cases s with ⟨a, -, hf⟩ | ⟨j, -, -, hf⟩ | ⟨a, rest, -, -, -, hf⟩ | ⟨-, -, -, hf⟩ <;> rw [hf] at h
  · obtain ⟨-, f, rfl⟩ := accept_eq_quiet h
    rfl
  · cases h
  · obtain ⟨-, f, rfl⟩ := accept_eq_quiet h
    rfl
  · cases h
    rfl

/-! ### What the operations do to the bank `S` -/

/-- INIT on an idle block (R35, R90): the whole next state. -/
theorem exec_init_of_idle {s : State} (h : s.upc = .idle) (c : Byte) (v : Bool) :
    exec (.init c v) s =
      .next { s with S := SearchState.initial c v, written := true, result := .nothing } := by
  rw [exec, execInit, whenIdle_idle h]
  rfl

/-- A RUN's acceptance writes no field of `S`. -/
theorem exec_run_S {operands : RunOperands} {s t : State} (h : exec (.run operands) s = .next t) : t.S = s.S := by
  obtain ⟨-, -, rfl⟩ := execRun_eq_next h
  rfl

/-- CHECKSUM writes no field of `S` (R153). -/
theorem exec_checksum_S {input : List Byte} {s t : State} (h : exec (.checksum input) s = .next t) : t.S = s.S := by
  obtain ⟨-, h⟩ := whenIdle_eq_next h
  cases h
  rfl

/-- The status test reads `S` and writes no field of it, on either side of the test (R101). -/
theorem exec_statusTest_S {s t : State} (h : exec .statusTest s = .next t) : t.S = s.S := by
  rw [exec, execStatusTest] at h
  split at h <;> cases h <;> rfl

/-- The exit writes the first flag only, so the status stays (R115). -/
theorem exec_exit_status {s t : State} (h : exec .exit s = .next t) : t.S.status = s.S.status := by
  rw [exec, execExit, exitOp_eq] at h
  cases h
  rfl

/-- A host operation that is no INIT writes no field of `S`. -/
theorem exec_hostOperation_S {ports : HostPorts} {i : Instr} {s t : State} (hd : decode (.op ports) = .instr i)
    (hinit : ∀ c v, i ≠ .init c v) (h : exec i s = .next t) : t.S = s.S := by
  rcases decodeOp_cases hd with ⟨c, v, rfl⟩ | ⟨cap, buffer, -, rfl⟩ | ⟨input, rfl⟩
  · exact absurd rfl (hinit c v)
  · exact exec_run_S h
  · exact exec_checksum_S h

/-! ### A terminal status -/

/-- Outside a search the sequencer selects the status test or the exit, or nothing. -/
theorem MicroPc.uop_of_not_searching {u : MicroPc} {i : Instr} (hs : u.searching = false) (hu : u.uop = some i) :
    i = .statusTest ∨ i = .exit := by
  cases u with
  | idle => cases hu
  | check => exact .inl (Option.some.inj hu).symm
  | exit => exact .inr (Option.some.inj hu).symm
  | _ => cases hs

/-- A state of the invariant with a terminal status stands outside a search (R18, R101). -/
theorem MachineInvariant.not_searching {s : State} (hI : MachineInvariant s) (hs : s.S.status ≠ .more) :
    s.upc.searching = false :=
  Bool.eq_false_iff.mpr fun h => hs (hI.status h)

/-- Settles O8: INIT on an idle block writes the six fields of `S` and leaves the rest (R35, R91). -/
theorem initResetsTheBank : Obligations.InitResetsTheBank := fun c v _ hu =>
  ⟨_, exec_init_of_idle hu c v, rfl, rfl, rfl, rfl, rfl, rfl, rfl⟩

/-- Settles O55: with a terminal status the sequencer is at IDLE, CHECK or EXIT, so the step runs the status test, the exit, a RUN, a
CHECKSUM, a host read or nothing, and none of these writes the status (R18). -/
theorem terminalStatusIsLeftByInitOnly : Obligations.TerminalStatusIsLeftByInitOnly := by
  intro s t hI hstep hs hinit
  rcases step_eq_next hstep with ⟨i, s', hf, hx⟩ | hq
  · obtain ⟨hs', hi⟩ := fetch_eq_instr hf
    have hS : s'.S = s.S := by rw [hs']
    rw [← hS]
    rcases hi with hu | ⟨ports, hd⟩
    · rcases MicroPc.uop_of_not_searching (hI.not_searching hs) hu with rfl | rfl
      · rw [exec_statusTest_S hx]
      · exact exec_exit_status hx
    · have hi : ∀ c v, i ≠ .init c v := fun c v h => hinit c v s' (h ▸ hf)
      rw [exec_hostOperation_S hd hi hx]
  · rw [fetch_eq_quiet hq]

end Sys2Proof.Machine
end

section
/-! Primitives that never return (R62), and the statement of family 20_memory: the place that issued the primitive is never left. -/

namespace Sys2Proof.Machine

/-- Going to the place where the sequencer stands changes nothing. -/
theorem State.goto_self {s : State} {u : MicroPc} (h : s.upc = u) : s.goto u = s := by
  subst h
  rfl

/-! ### An operation whose primitive never returns -/

/-- TX_BEGIN clears its three registers (R103) before the reset that never returns. -/
theorem txBeginOp_of_stuck {s : State} (h : s.bus.issue .reset = none) :
    txBeginOp s = (s.setW { s.W with i := 0, code := 0, lfValid := false }).goto .txReset := by
  rw [txBeginOp, issue_of_stuck (by simpa using h)]

theorem execTxCmd_of_stuck {s : State} (h : s.bus.issue (.writeCommand s.S.command) = none) :
    execTxCmd s = .next (s.goto .txCmd) := by
  rw [execTxCmd, issue_of_stuck h]

theorem readPairOp_of_stuck_at_rdP {s : State} (hu : s.upc = .rdP) (h : s.bus.issue .readBit = none) :
    readPairOp s = s.goto .rdP := by
  rw [readPairOp, if_neg (by simp [hu]), issue_of_stuck h]

theorem readPairOp_of_stuck_at_rdN {s : State} (hu : s.upc = .rdN) (h : s.bus.issue .readBit = none) :
    readPairOp s = s.goto .rdN := by
  rw [readPairOp, if_pos hu, readSecond, issue_of_stuck h]

theorem writeBackOp_of_stuck {s : State} (h : s.bus.issue (.writeBit s.W.r) = none) :
    writeBackOp s = s.goto .wrBit := by
  rw [writeBackOp, issue_of_stuck h]

/-! ### A stuck engine -/

/-- A step stuck at a transaction's begin clears the three registers and nothing else (R103). -/
theorem step_of_stuck_at_txReset {s : State} (hu : s.upc = .txReset) (hp : s.port = none)
    (h : s.bus.issue .reset = none) :
    step s = .next (s.setW { s.W with i := 0, code := 0, lfValid := false }) := by
  rw [step_of_uop hp (i := .txBegin) (by rw [hu]; rfl), exec, execTxBegin, txBeginOp_of_stuck h,
    State.goto_self (by simpa using hu)]

/-- A step stuck at any other place changes nothing. -/
theorem step_of_stuck_elsewhere {s : State} (hs : stuck s) (hp : s.port = none) (hne : s.upc ≠ .txReset) :
    step s = .next s := by
  cases hu : s.upc with
  | txReset => exact absurd hu hne
  | txCmd =>
    have h : s.bus.issue (.writeCommand s.S.command) = none := by simpa only [stuck, hu] using hs
    rw [step_of_uop hp (i := .txCmd) (by rw [hu]; rfl), exec, execTxCmd_of_stuck h, State.goto_self hu]
  | rdP =>
    have h : s.bus.issue .readBit = none := by simpa only [stuck, hu] using hs
    rw [step_of_uop hp (i := .readPair) (by rw [hu]; rfl), exec, execReadPair, readPairOp_of_stuck_at_rdP hu h,
      State.goto_self hu]
  | rdN =>
    have h : s.bus.issue .readBit = none := by simpa only [stuck, hu] using hs
    rw [step_of_uop hp (i := .readPair) (by rw [hu]; rfl), exec, execReadPair, readPairOp_of_stuck_at_rdN hu h,
      State.goto_self hu]
  | wrBit =>
    have h : s.bus.issue (.writeBit s.W.r) = none := by simpa only [stuck, hu] using hs
    rw [step_of_uop hp (i := .writeBack) (by rw [hu]; rfl), exec, execWriteBack, writeBackOp_of_stuck h,
      State.goto_self hu]
  | _ => simp [stuck, hu] at hs

/-- A step of a stuck engine touches bank `W` alone, and leaves a state that steps to itself: clearing the registers of R103 again
changes nothing. -/
theorem step_of_stuck {s : State} (hs : stuck s) (hp : s.port = none) :
    ∃ w, step s = .next (s.setW w) ∧ step (s.setW w) = .next (s.setW w) := by
  by_cases hu : s.upc = .txReset
  · have h : s.bus.issue .reset = none := by simpa only [stuck, hu] using hs
    exact ⟨_, step_of_stuck_at_txReset hu hp h, step_of_stuck_at_txReset hu hp h⟩
  · exact ⟨s.W, step_of_stuck_elsewhere hs hp hu, step_of_stuck_elsewhere hs hp hu⟩

/-- From a state that steps to itself every run ends in that state. -/
theorem runSteps_of_step_self {s : State} (h : step s = .next s) (k : Nat) : runSteps k s = .next s := by
  induction k with
  | zero => rfl
  | succ k ih => rw [runSteps_succ h, ih]

/-- Settles O39: the first step of a stuck engine touches `W` alone and reaches a state that steps to itself (R62). -/
theorem stuckPrimitiveHoldsThePhase : Obligations.StuckPrimitiveHoldsThePhase := by
  intro s hs hp
  obtain ⟨w, hfirst, hself⟩ := step_of_stuck hs hp
  refine ⟨s.setW w, rfl, rfl, rfl, rfl, rfl, fun k => ?_⟩
  rw [runSteps_succ hfirst, runSteps_of_step_self hself]

end Sys2Proof.Machine
end

section
/-! What each selector code decodes to, and the statements of family 30_encoding: one lemma per row of the tables of R71, R81, R75 and
R82, over every content of the operand ports and of the don't-care bit. -/

namespace Sys2Proof

/-! ### Format OP (R71 to R74) -/

theorem decode_op_init {h : HostPorts} (hop : h.op = 0b00#2) : decode (.op h) = .instr (.init h.command h.verify) := by
  rw [decode, decodeOp, if_pos hop]

/-- RUN takes the entries within `capacity` of the buffer that stands on its port (R195). -/
theorem decode_op_run {h : HostPorts} (hop : h.op = 0b01#2) (hfits : h.capacity.toNat ≤ h.buffer.length) :
    decode (.op h) = .instr (.run ⟨h.capacity, h.buffer.take h.capacity.toNat⟩) := by
  rw [decode, decodeOp, if_neg (by simp [hop]), if_pos hop, if_pos hfits]

/-- CHECKSUM takes the first `length` bytes of `IN` (R44, R153). -/
theorem decode_op_checksum {h : HostPorts} (hop : h.op = 0b10#2) (hfits : h.length.toNat ≤ h.input.length) :
    decode (.op h) = .instr (.checksum (h.input.take h.length.toNat)) := by
  rw [decode, decodeOp, if_neg (by simp [hop]), if_neg (by simp [hop]), if_pos hop, if_pos hfits]

theorem decode_op_reserved {h : HostPorts} (hop : h.op = 0b11#2) : decode (.op h) = .rejected .reservedOp := by
  rw [decode, decodeOp, if_neg (by simp [hop]), if_neg (by simp [hop]), if_neg (by simp [hop])]

/-- Settles O1: each value of the select code has its row of R71, whatever stands on the operand ports. -/
theorem opPortSelectsTheHostOperation : Obligations.OpPortSelectsTheHostOperation := fun _ =>
  ⟨decode_op_init, decode_op_run, decode_op_checksum, decode_op_reserved⟩

/-! ### Format BUSOP (R81): the row that names an argument port takes it, the others ignore both -/

theorem decode_bus_reset (argByte : Byte) (argBit : Bool) :
    decode (.bus ⟨0b00#2, argByte, argBit⟩) = .instr .busReset := rfl

theorem decode_bus_writeCommand (argByte : Byte) (argBit : Bool) :
    decode (.bus ⟨0b01#2, argByte, argBit⟩) = .instr (.busWriteCommand argByte) := rfl

theorem decode_bus_writeBit (argByte : Byte) (argBit : Bool) :
    decode (.bus ⟨0b10#2, argByte, argBit⟩) = .instr (.busWriteBit argBit) := rfl

theorem decode_bus_readBit (argByte : Byte) (argBit : Bool) :
    decode (.bus ⟨0b11#2, argByte, argBit⟩) = .instr .busReadBit := rfl

/-! ### Format PAIR (R75): `{p, n}` -/

theorem decode_pair_fork : decode (.pair 0b00#2) = .instr .pairFork := rfl

theorem decode_pair_zero : decode (.pair 0b01#2) = .instr .pairZero := rfl

theorem decode_pair_one : decode (.pair 0b10#2) = .instr .pairOne := rfl

theorem decode_pair_fail : decode (.pair 0b11#2) = .instr .pairFail := rfl

/-! ### Format FORKSEL (R82): `{replay_ok, lt, eq}`

A row with a don't-care bit speaks of every vector whose two low bits are the row's: the vectors of the rows without one have
other low bits, so the tests that the decoder makes before it fail. -/

/-- A vector of given low bits is no vector of other low bits. -/
theorem ne_of_lowBits {code other low : BitVec 3} (hlow : code &&& 0b011#3 = low)
    (hother : other &&& 0b011#3 ≠ low) : code ≠ other := by
  rintro rfl
  exact hother hlow

/-- Row `110`: below the fork point and allowed to replay. -/
theorem decode_forksel_replay : decode (.forksel 0b110#3) = .instr .forkReplay := rfl

/-- Row `x01`: at the fork point. -/
theorem decode_forksel_exhausted {code : BitVec 3} (hlow : code &&& 0b011#3 = 0b001#3) :
    decode (.forksel code) = .instr .forkExhausted := by
  have hreplay : code ≠ 0b110#3 := ne_of_lowBits hlow (by decide)
  rw [decode, decodeForksel, if_neg hreplay, if_pos hlow]

/-- Row `010`: below the fork point and barred from replay. -/
theorem decode_forksel_newBarred : decode (.forksel 0b010#3) = .instr .forkNewBarred := rfl

/-- Row `x00`: beyond the fork point. -/
theorem decode_forksel_newBeyond {code : BitVec 3} (hlow : code &&& 0b011#3 = 0b000#3) :
    decode (.forksel code) = .instr .forkNewBeyond := by
  have hreplay : code ≠ 0b110#3 := ne_of_lowBits hlow (by decide)
  have hbarred : code ≠ 0b010#3 := ne_of_lowBits hlow (by decide)
  rw [decode, decodeForksel, if_neg hreplay, if_neg (by simp [hlow]), if_neg hbarred, if_pos hlow]

/-- Vectors `x11`, a position both below and at the fork point, are impossible (R80). -/
theorem decode_forksel_impossible {code : BitVec 3} (hlow : code &&& 0b011#3 = 0b011#3) :
    decode (.forksel code) = .rejected .impossibleForkVector := by
  have hreplay : code ≠ 0b110#3 := ne_of_lowBits hlow (by decide)
  have hbarred : code ≠ 0b010#3 := ne_of_lowBits hlow (by decide)
  rw [decode, decodeForksel, if_neg hreplay, if_neg (by simp [hlow]), if_neg hbarred, if_neg (by simp [hlow])]

/-- Settles O2: the rows of R81, R75 and R82, both values of a don't-care bit from the row's one lemma. -/
theorem busPairAndForkCodesDecode : Obligations.BusPairAndForkCodesDecode :=
  ⟨fun argByte argBit =>
      ⟨decode_bus_reset argByte argBit, decode_bus_writeCommand argByte argBit, decode_bus_writeBit argByte argBit,
        decode_bus_readBit argByte argBit⟩,
    decode_pair_fork, decode_pair_zero, decode_pair_one, decode_pair_fail,
    decode_forksel_replay,
    decode_forksel_exhausted rfl, decode_forksel_exhausted rfl,
    decode_forksel_newBarred,
    decode_forksel_newBeyond rfl, decode_forksel_newBeyond rfl,
    decode_forksel_impossible rfl, decode_forksel_impossible rfl⟩

end Sys2Proof
end

section
/-! The micro-operations of a RUN: one equation for each side of each of them, giving the whole next state, and the statements of family
41_run about a single place of the sequencer (R101 to R105, R110, R113, R114). -/

namespace Sys2Proof.Machine

/-- With nothing on the port, a run is the micro-operation of the sequencer's place and then a shorter run. -/
theorem runSteps_of_uop {s s' : State} {i : Instr} {k : Nat} {r : Host.Outcome State Fault Refusal} (hp : s.port = none)
    (hu : s.upc.uop = some i) (hx : exec i s = .next s') (hrest : runSteps k s' = r) : runSteps (k + 1) s = r := by
  rw [runSteps_succ ((step_of_uop hp hu).trans hx), hrest]

/-! ### The status test and the loop test -/

theorem exec_statusTest_of_more {s : State} (h : s.S.status = .more) :
    exec .statusTest s = .next { s with upc := .loop, W := { s.W with count := 0 } } := by
  rw [exec, execStatusTest, if_pos h]
  rfl

theorem exec_statusTest_of_terminal {s : State} (h : s.S.status ≠ .more) :
    exec .statusTest s = .next { s with upc := .idle, result := .count 0 } := by
  rw [exec, execStatusTest, if_neg h]
  rfl

theorem exec_loopTest_of_room {s : State} (h : s.W.count < s.capacity) :
    exec .loopTest s = .next { s with upc := .txReset } := by
  rw [exec, execLoopTest, if_pos h]
  rfl

theorem exec_loopTest_of_full {s : State} (h : ¬ s.W.count < s.capacity) :
    exec .loopTest s = .next { s with upc := .exit } := by
  rw [exec, execLoopTest, if_neg h]
  rfl

theorem exec_exit (s : State) :
    exec .exit s = .next
      { s with S := { s.S with isFirstTransaction := false }, result := .count s.W.count, upc := .idle } := rfl

/-! ### The begin of a transaction -/

theorem exec_txBegin_of_returns {s : State} {presence : Bool} {bus' : BusEnv}
    (h : s.bus.issue .reset = some (presence, bus')) :
    exec .txBegin s = .next
      { s with
        S := if presence then s.S else { s.S with status := .failed }
        W := { s.W with i := 0, code := 0, lfValid := false }
        bus := bus'
        ans := presence
        trace := s.trace ++ [.rst presence]
        upc := if presence then .txCmd else .exit } := by
  rw [exec, execTxBegin, txBeginOp, issue_of_returns (by simpa using h)]
  cases presence <;> rfl

theorem exec_txBegin_of_presence {s : State} {bus' : BusEnv} (h : s.bus.issue .reset = some (true, bus')) :
    exec .txBegin s = .next
      { s with
        W := { s.W with i := 0, code := 0, lfValid := false }
        bus := bus'
        ans := true
        trace := s.trace ++ [.rst true]
        upc := .txCmd } := exec_txBegin_of_returns h

theorem exec_txBegin_of_no_presence {s : State} {bus' : BusEnv} (h : s.bus.issue .reset = some (false, bus')) :
    exec .txBegin s = .next
      { s with
        S := { s.S with status := .failed }
        W := { s.W with i := 0, code := 0, lfValid := false }
        bus := bus'
        ans := false
        trace := s.trace ++ [.rst false]
        upc := .exit } := exec_txBegin_of_returns h

theorem exec_txCmd_of_returns {s : State} {a : Bool} {bus' : BusEnv}
    (h : s.bus.issue (.writeCommand s.S.command) = some (a, bus')) :
    exec .txCmd s = .next { s with bus := bus', trace := s.trace ++ [.cmd s.S.command], upc := .rdP } := by
  rw [exec, execTxCmd, issue_of_returns h]
  rfl

/-- A transaction whose reset reports presence and whose command returns comes to its first read in two steps (R103, R105). -/
theorem runSteps_transaction_begin {s : State} {a : Bool} {bus' bus'' : BusEnv} (hu : s.upc = .txReset)
    (hp : s.port = none) (hreset : s.bus.issue .reset = some (true, bus'))
    (hcmd : bus'.issue (.writeCommand s.S.command) = some (a, bus'')) :
    runSteps 2 s = .next
      { s with
        W := { s.W with i := 0, code := 0, lfValid := false }
        bus := bus''
        ans := true
        trace := s.trace ++ [.rst true, .cmd s.S.command]
        upc := .rdP } := by
  have htrace : (s.trace ++ [.rst true]) ++ [.cmd s.S.command] = s.trace ++ [.rst true, .cmd s.S.command] := by simp
  rw [← htrace]
  exact runSteps_of_uop hp (by rw [hu]; rfl) (exec_txBegin_of_presence hreset) <|
    runSteps_of_uop hp rfl (exec_txCmd_of_returns hcmd) rfl

/-! ### The commit -/

theorem exec_commit (s : State) :
    exec .commit s = .next { s with S := { s.S with previousCode := s.W.code }, upc := .commitFilter } := rfl

theorem exec_crcFilter_of_unverified {s : State} (h : s.S.verifyChecksums = false) :
    exec .crcFilter s = .next { s with upc := .commitEmit } := by
  rw [exec, execCrcFilter, if_neg (by simp [h])]
  rfl

/-- With verification the filter leaves the checksum and the byte count behind, and emits on checksum 0 alone (R112, R154). -/
theorem exec_crcFilter_of_verified {s : State} (h : s.S.verifyChecksums = true) :
    exec .crcFilter s = .next
      { s with
        W := { s.W with crc := crc8 (romBytes s.W.code), k := 8 }
        upc := if crc8 (romBytes s.W.code) = 0 then .commitEmit else .commitDone } := by
  rw [exec, execCrcFilter, if_pos h]
  rfl

theorem exec_emit_of_room {s : State} (h : s.W.count < s.capacity) :
    exec .emit s = .next
      { s with
        out := s.out.writeEntry s.W.count s.W.code
        W := { s.W with count := s.W.count + 1 }
        upc := .commitDone } := by
  rw [exec, execEmit, writeOut_of_room h]
  rfl

/-- An emission that answers a next state wrote one entry below the capacity. -/
theorem exec_emit_eq_next {s t : State} (h : exec .emit s = .next t) :
    s.W.count < s.capacity ∧
      t = { s with
        out := s.out.writeEntry s.W.count s.W.code
        W := { s.W with count := s.W.count + 1 }
        upc := .commitDone } := by
  by_cases hroom : s.W.count < s.capacity
  · rw [exec_emit_of_room hroom] at h
    cases h
    exact ⟨hroom, rfl⟩
  · rw [exec, execEmit, writeOut, if_neg hroom] at h
    cases h

theorem exec_doneTest_of_no_fork {s : State} (h : s.W.lfValid = false) :
    exec .doneTest s = .next { s with S := { s.S with status := .done }, upc := .exit } := by
  rw [exec, execDoneTest, if_neg (by simp [h])]
  rfl

theorem exec_doneTest_of_fork {s : State} (h : s.W.lfValid = true) :
    exec .doneTest s = .next { s with upc := .commitSave } := by
  rw [exec, execDoneTest, if_pos h]
  rfl

theorem exec_saveFork (s : State) :
    exec .saveFork s = .next
      { s with S := { s.S with previousForkPosition := forkPositionOf s.W.lfPos }, upc := .loop } := rfl

/-! ### The statements -/

/-- Settles O11: the two sides of the status test (R101). -/
theorem statusTestGuardsTheRun : Obligations.StatusTestGuardsTheRun := fun _ =>
  ⟨exec_statusTest_of_terminal, fun h => ⟨_, exec_statusTest_of_more h, rfl⟩⟩

/-- Settles O13: the two sides of the loop test (R102); with capacity 0 the loop test fails at count 0, so the three steps are the status
test, the loop test and the exit. -/
theorem loopTestComparesCountWithCapacity : Obligations.LoopTestComparesCountWithCapacity := by
  refine fun s => ⟨exec_statusTest_of_more, fun h => exec_loopTest_of_room h,
    fun h => exec_loopTest_of_full (Nat.not_lt.mpr h), fun hmore hcap hu hp => ?_⟩
  exact runSteps_of_uop hp (by rw [hu]; rfl) (exec_statusTest_of_more hmore) <|
    runSteps_of_uop hp rfl (exec_loopTest_of_full (by simp [hcap])) <| runSteps_of_uop hp rfl (exec_exit _) rfl

/-- Settles O14: a transaction begins with the reset, whatever it answers (R103, R104). -/
theorem transactionBeginsWithReset : Obligations.TransactionBeginsWithReset := fun _ _ _ =>
  exec_txBegin_of_returns

/-- Settles O15: without presence the two steps are the transaction's begin and the exit (R104, R115). -/
theorem noPresenceEndsTheRun : Obligations.NoPresenceEndsTheRun := by
  intro s bus' hreset hu hp
  exact runSteps_of_uop hp (by rw [hu]; rfl) (exec_txBegin_of_no_presence hreset) <|
    runSteps_of_uop hp rfl (exec_exit _) rfl

/-- Settles O16: the command's own step, and its place after the reset (R105). -/
theorem commandPhaseSendsTheCommand : Obligations.CommandPhaseSendsTheCommand :=
  ⟨fun _ _ _ => exec_txCmd_of_returns, fun _ _ _ _ => runSteps_transaction_begin⟩

/-- Settles O17: the commit's copy stands before the filter and reads nothing but `W.code` (R110). -/
theorem commitCopiesTheCodeAlways : Obligations.CommitCopiesTheCodeAlways := exec_commit

/-- Settles O21: no recorded fork ends the search, and both an emission and a discard come to the Done test (R113). -/
theorem doneWhenNoForkRecorded : Obligations.DoneWhenNoForkRecorded := by
  refine fun s => ⟨exec_doneTest_of_no_fork, fun t h => ?_, fun hv hcrc => ?_⟩
  · obtain ⟨-, rfl⟩ := exec_emit_eq_next h
    rfl
  · exact ⟨_, exec_crcFilter_of_verified hv, if_neg hcrc⟩

/-- Settles O22: a recorded fork goes to SAVE_FORK, which saves it (R114). -/
theorem savedForkPositionIsTheRecord : Obligations.SavedForkPositionIsTheRecord := fun s =>
  ⟨exec_doneTest_of_fork, _, exec_saveFork s, rfl, rfl⟩

end Sys2Proof.Machine
end

section
/-! The places an operation can leave the sequencer at, and the statement of family 41_run about the way back to IDLE (R115): none of
them but the status test and the exit takes a busy block to IDLE. -/

namespace Sys2Proof.Machine

/-! ### Bus primitives keep the place -/

theorem issue_upc {q : BusPrim} {s s' : State} (h : issue q s = some s') : s'.upc = s.upc := by
  obtain ⟨a, bus', -, rfl⟩ := issue_eq_some h
  rfl

@[simp] theorem primitive_upc (q : BusPrim) (s : State) : (primitive q s).upc = s.upc := by
  cases h : issue q s with
  | none => simp [primitive, h]
  | some s' => simpa [primitive, h] using issue_upc h

/-! ### The places of a bit round -/

@[simp] theorem raiseFailedOp_upc (cause : FailCause) (s : State) : (raiseFailedOp cause s).upc = .exit := rfl

@[simp] theorem adopt_upc (bit : Bool) (s : State) : (adopt bit s).upc = .wrBit := rfl

@[simp] theorem forkExhaustedOp_upc (s : State) : (forkExhaustedOp s).upc = .wrBit := rfl

@[simp] theorem forkNewOp_upc (s : State) : (forkNewOp s).upc = .wrBit := rfl

@[simp] theorem forkReplayOp_upc (s : State) : (forkReplayOp s).upc = .wrBit := by
  unfold forkReplayOp
  split <;> rfl

@[simp] theorem pairForkOp_upc (s : State) : (pairForkOp s).upc = .wrBit := by
  rcases pairForkOp_cases s with ⟨-, h⟩ | ⟨-, h⟩ | ⟨-, h⟩ <;> simp [h]

/-- A classified pair goes to the write-back, a failing one to the exit (R122). -/
theorem classifyOp_upc (s : State) :
    (classifyOp s).upc = if pairClass s.W.p s.W.n = .fail then .exit else .wrBit := by
  unfold classifyOp
  cases pairClass s.W.p s.W.n <;> simp

theorem readSecond_upc (s : State) : (readSecond s).upc = .rdN ∨ (readSecond s).upc = .resolve := by
  cases h : issue .readBit s with
  | none => exact .inl (by simp [readSecond, h])
  | some s' => exact .inr (by simp [readSecond, h])

/-- The pair read stays at the read that has not returned, or goes on to the resolution (R121, R62). -/
theorem readPairOp_upc (s : State) :
    (readPairOp s).upc = .rdP ∨ (readPairOp s).upc = .rdN ∨ (readPairOp s).upc = .resolve := by
  unfold readPairOp
  split
  · exact .inr (readSecond_upc s)
  · split
    · exact .inl rfl
    · exact .inr (readSecond_upc _)

theorem writeBackOp_upc (s : State) : (writeBackOp s).upc = .wrBit ∨ (writeBackOp s).upc = .wrStore := by
  cases h : issue (.writeBit s.W.r) s with
  | none => exact .inl (by simp [writeBackOp, h])
  | some s' => exact .inr (by simp [writeBackOp, h])

@[simp] theorem storeOp_upc (s : State) : (storeOp s).upc = .wrAdvance := rfl

@[simp] theorem advanceOp_upc (s : State) : (advanceOp s).upc = if s.W.i + 1 = 64 then .commit else .rdP := rfl

theorem txBeginOp_upc (s : State) :
    (txBeginOp s).upc = .txReset ∨ (txBeginOp s).upc = .txCmd ∨ (txBeginOp s).upc = .exit := by
  unfold txBeginOp
  dsimp only
  split
  · exact .inl rfl
  · split
    · exact .inr (.inl rfl)
    · exact .inr (.inr rfl)

/-! ### A busy sequencer stays busy -/

theorem classifyOp_busy (s : State) : (classifyOp s).upc ≠ .idle := by
  rw [classifyOp_upc]
  split <;> decide

theorem readPairOp_busy (s : State) : (readPairOp s).upc ≠ .idle := by
  rcases readPairOp_upc s with h | h | h <;> simp [h]

theorem writeBackOp_busy (s : State) : (writeBackOp s).upc ≠ .idle := by
  rcases writeBackOp_upc s with h | h <;> simp [h]

theorem advanceOp_busy (s : State) : (advanceOp s).upc ≠ .idle := by
  rw [advanceOp_upc]
  split <;> decide

theorem txBeginOp_busy (s : State) : (txBeginOp s).upc ≠ .idle := by
  rcases txBeginOp_upc s with h | h | h <;> simp [h]

/-- An operation run at its place keeps a busy sequencer busy when it ends at a busy place. -/
theorem whenAt_busy {u : MicroPc} {f : State → State} {s : State} (hf : ∀ x, (f x).upc ≠ .idle) (hs : s.upc ≠ .idle) :
    (whenAt u f s).upc ≠ .idle := by
  unfold whenAt
  split
  · exact hf s
  · exact hs

/-- A bit round ends at one of its own places, at the commit or at the exit: it goes on from a place inside a round, and from RD_P
elsewhere (R120). -/
theorem bitRoundOp_busy (s : State) : (bitRoundOp s).upc ≠ .idle := by
  have hstart : (if s.upc.phase = .RD_N ∨ s.upc.phase = .RESOLVE ∨ s.upc.phase = .WR_BIT then s
      else s.goto .rdP).upc ≠ .idle := by
    split
    · rename_i hround
      intro h
      simp [h, MicroPc.phase] at hround
    · simp
  have hread (x : State) (hx : x.upc ≠ .idle) :
      (if x.upc = .rdP ∨ x.upc = .rdN then readPairOp x else x).upc ≠ .idle := by
    split
    · exact readPairOp_busy x
    · exact hx
  exact whenAt_busy advanceOp_busy (whenAt_busy (by simp) (whenAt_busy writeBackOp_busy
    (whenAt_busy classifyOp_busy (hread _ hstart))))

/-- A host operation is refused on a busy block (R173(b)), so it does not take it to IDLE. -/
theorem whenIdle_ne_next_of_busy {s t : State} {k : Host.Outcome State Fault Refusal} (hbusy : s.upc ≠ .idle) :
    whenIdle s k ≠ .next t := by
  simp [whenIdle_busy hbusy]

/-- Every instruction but the status test and the exit keeps a busy block busy. -/
theorem exec_keeps_busy {i : Instr} {s t : State} (h : exec i s = .next t) (hbusy : s.upc ≠ .idle)
    (htest : i ≠ .statusTest) (hexit : i ≠ .exit) : t.upc ≠ .idle := by
  cases i with
  | statusTest => exact absurd rfl htest
  | exit => exact absurd rfl hexit
  | init | run | checksum => exact absurd h (whenIdle_ne_next_of_busy hbusy)
  | busReset | busWriteCommand | busWriteBit | busReadBit => cases h; simpa using hbusy
  | getBit | setBit | map | crc8 => cases h; exact hbusy
  | pairFork | pairZero | pairOne | pairFail => cases h; simp
  | forkReplay | forkExhausted | forkNewBarred | forkNewBeyond => cases h; simp
  | loopTest => cases h; split <;> simp
  | txBegin => cases h; exact txBeginOp_busy s
  | txCmd => cases h; split <;> simp
  | bitRound => cases h; exact bitRoundOp_busy s
  | readPair => cases h; exact readPairOp_busy s
  | classify => cases h; exact classifyOp_busy s
  | writeBack => cases h; exact writeBackOp_busy s
  | store => cases h; simp
  | advance => cases h; exact advanceOp_busy s
  | commit | saveFork | raiseFailed => cases h; simp
  | crcFilter =>
    cases h
    split
    · rw [State.goto_upc]
      split <;> decide
    · simp
  | emit =>
    obtain ⟨-, rfl⟩ := exec_emit_eq_next h
    simp
  | doneTest => cases h; split <;> simp
  | copy move =>
    cases move with
    | codeToPrevious | zeroToPrevious => cases h; exact hbusy
    | codeToOut =>
      obtain ⟨-, rfl⟩ := writeOut_eq_next h
      exact hbusy

/-- Settles O23: the exit's whole effect, and no other way to IDLE than the status test and the exit (R115). -/
theorem everyRunLeavesThroughTheExit : Obligations.EveryRunLeavesThroughTheExit := by
  refine ⟨exec_exit, fun i s t h hbusy hidle => ?_⟩
  by_contra hne
  obtain ⟨htest, hexit⟩ := not_or.mp hne
  exact exec_keeps_busy h hbusy htest hexit hidle

end Sys2Proof.Machine
end

section
/-! A bit round in five steps (R120): what its resolution and its five micro-operations leave, in terms of the listing's `resolvedBit`
and `recordsFork`. -/

namespace Sys2Proof.Machine

/-! ### The bit index -/

theorem Working.ofNat_i (w : Working) : BitVec.ofNat 6 w.i.toNat = w.index := by
  apply BitVec.eq_of_toNat_eq
  simp [Working.index]

theorem Working.index_toNat {w : Working} (hi : w.i.toNat < 64) : w.index.toNat = w.i.toNat := by
  rw [← Working.ofNat_i, BitVec.toNat_ofNat]
  omega

theorem romGetBit_index (v : RomCode) {w : Working} (hi : w.i.toNat < 64) : romGetBit v w.index = v.getLsbD w.i.toNat := by
  rw [romGetBit, Working.index_toNat hi]

/-! ### The arms of fork resolution -/

theorem replayOk_iff (s : State) : replayOk s = true ↔ 0 < s.W.count.toNat ∨ s.S.isFirstTransaction = false := by
  simp [replayOk]

theorem forkLt_iff (s : State) : forkLt s = true ↔ s.W.i.toNat < s.S.previousForkPosition.val := by
  simp [forkLt]

theorem forkEq_iff (s : State) : forkEq s = true ↔ s.W.i.toNat = s.S.previousForkPosition.val := by
  simp [forkEq]

/-- The condition of REPLAY (R126). -/
theorem forkArm_eq_replay_iff (s : State) :
    forkArm s = .replay ↔
      (0 < s.W.count.toNat ∨ s.S.isFirstTransaction = false) ∧ s.W.i.toNat < s.S.previousForkPosition.val := by
  rw [← replayOk_iff, ← forkLt_iff, ← Bool.and_eq_true, forkArm]
  cases replayOk s && forkLt s <;> cases forkEq s <;> cases forkLt s <;> simp

/-- The condition of EXHAUSTED (R127): it excludes that of REPLAY, which is tested first. -/
theorem forkArm_eq_exhausted_iff (s : State) :
    forkArm s = .exhausted ↔ s.W.i.toNat = s.S.previousForkPosition.val := by
  have hlt : s.W.i.toNat = s.S.previousForkPosition.val → forkLt s = false := fun h => by simp [forkLt, h]
  rw [← forkEq_iff] at hlt ⊢
  unfold forkArm
  cases heq : forkEq s
  · cases replayOk s && forkLt s <;> cases forkLt s <;> simp
  · simp [hlt heq]

/-! ### Resolution -/

/-- `W` after the resolution of a pair: `W.r` holds the bit, and a recorded fork stands at `W.i` (R126 to R128). -/
def Working.resolve (w : Working) (bit recorded : Bool) : Working :=
  if recorded then { w with r := bit }.recordFork else { w with r := bit }

theorem resolvedBit_of_agreed {S : SearchState} {count : BitVec 16} {i : Nat} {p n : Bool} (h : ¬(p = false ∧ n = false)) :
    resolvedBit S count i p n = p := by
  rw [resolvedBit, if_neg h]

theorem recordsFork_of_agreed {S : SearchState} {count : BitVec 16} {i : Nat} {p n : Bool} (h : ¬(p = false ∧ n = false)) :
    recordsFork S count i p n = false := by
  simp [recordsFork, h]

theorem recordsFork_of_fork (S : SearchState) (count : BitVec 16) (i : Nat) :
    recordsFork S count i false false = !resolvedBit S count i false false := by
  simp [recordsFork]

/-- A fork resolves to the listing's bit, and is recorded exactly when that bit is 0 (R125 to R128). -/
theorem pairForkOp_eq_resolved {s : State} (hi : s.W.i.toNat < 64) :
    pairForkOp s = resolved s (s.W.resolve (resolvedBit s.S s.W.count s.W.i.toNat false false)
      (recordsFork s.S s.W.count s.W.i.toNat false false)) := by
  rw [recordsFork_of_fork]
  rcases pairForkOp_cases s with ⟨harm, hop⟩ | ⟨harm, hop⟩ | ⟨harm, hop⟩ <;> rw [hop]
  · have hreplay := (forkArm_eq_replay_iff s).mp harm
    have hbit : resolvedBit s.S s.W.count s.W.i.toNat false false = s.S.previousCode.getLsbD s.W.i.toNat := by
      simp [resolvedBit, hreplay]
    rw [hbit, forkReplayOp, romGetBit_index _ hi]
    cases s.S.previousCode.getLsbD s.W.i.toNat <;> rfl
  · have heq := (forkArm_eq_exhausted_iff s).mp harm
    have hbit : resolvedBit s.S s.W.count s.W.i.toNat false false = true := by simp [resolvedBit, heq]
    rw [hbit]
    rfl
  · have hreplay : ¬((0 < s.W.count.toNat ∨ s.S.isFirstTransaction = false) ∧
        s.W.i.toNat < s.S.previousForkPosition.val) := by
      rw [← forkArm_eq_replay_iff]
      rcases harm with h | h <;> simp [h]
    have hne : ¬ s.W.i.toNat = s.S.previousForkPosition.val := by
      rw [← forkArm_eq_exhausted_iff]
      rcases harm with h | h <;> simp [h]
    have hbit : resolvedBit s.S s.W.count s.W.i.toNat false false = false := by
      rw [resolvedBit, if_pos ⟨rfl, rfl⟩, if_neg hreplay, if_neg hne]
    rw [hbit]
    rfl

/-- CLASSIFY on a pair that is not (1,1): the listing's bit, and its fork record (R122, R123, R125). -/
theorem classifyOp_eq_resolved {s : State} (hi : s.W.i.toNat < 64) (hpn : ¬(s.W.p = true ∧ s.W.n = true)) :
    classifyOp s = resolved s (s.W.resolve (resolvedBit s.S s.W.count s.W.i.toNat s.W.p s.W.n)
      (recordsFork s.S s.W.count s.W.i.toNat s.W.p s.W.n)) := by
  unfold classifyOp
  cases hp : s.W.p <;> cases hn : s.W.n
  · exact pairForkOp_eq_resolved hi
  · rw [resolvedBit_of_agreed (by simp), recordsFork_of_agreed (by simp)]
    rfl
  · rw [resolvedBit_of_agreed (by simp), recordsFork_of_agreed (by simp)]
    rfl
  · exact absurd ⟨hp, hn⟩ hpn

/-- CLASSIFY on the pair (1,1) (R124). -/
theorem classifyOp_of_failing_pair {s : State} (hp : s.W.p = true) (hn : s.W.n = true) :
    classifyOp s = { s with S := { s.S with status := .failed }, upc := .exit } := by
  rw [classifyOp, hp, hn]
  rfl

/-! ### The micro-operations of a round -/

theorem exec_readPair_of_returns {s : State} {p n : Bool} {bus₁ bus₂ : BusEnv} (hu : s.upc ≠ .rdN)
    (hfirst : s.bus.issue .readBit = some (p, bus₁)) (hsecond : bus₁.issue .readBit = some (n, bus₂)) :
    exec .readPair s = .next
      { s with
        W := { s.W with p := p, n := n }
        bus := bus₂
        ans := n
        trace := s.trace ++ [.rd p, .rd n]
        upc := .resolve } := by
  have htrace : (s.trace ++ [.rd p]) ++ [.rd n] = s.trace ++ [.rd p, .rd n] := by simp
  rw [← htrace, exec, execReadPair, readPairOp, if_neg hu, issue_of_returns hfirst]
  dsimp only
  rw [readSecond, issue_of_returns (by simpa using hsecond)]
  rfl

theorem exec_classify_of_no_failure {s : State} (hi : s.W.i.toNat < 64) (hpn : ¬(s.W.p = true ∧ s.W.n = true)) :
    exec .classify s = .next
      { s with
        W := s.W.resolve (resolvedBit s.S s.W.count s.W.i.toNat s.W.p s.W.n)
          (recordsFork s.S s.W.count s.W.i.toNat s.W.p s.W.n)
        upc := .wrBit } := by
  rw [exec, execClassify, classifyOp_eq_resolved hi hpn]
  rfl

theorem exec_writeBack_of_returns {s : State} {a : Bool} {bus' : BusEnv}
    (h : s.bus.issue (.writeBit s.W.r) = some (a, bus')) :
    exec .writeBack s = .next { s with bus := bus', trace := s.trace ++ [.wr s.W.r], upc := .wrStore } := by
  rw [exec, execWriteBack, writeBackOp, issue_of_returns h]
  rfl

theorem exec_store (s : State) :
    exec .store s = .next
      { s with W := { s.W with code := romSetBit s.W.code s.W.index s.W.r }, upc := .wrAdvance } := rfl

/-- The last position of a round is 63, and the seven bits of `W.i` do not wrap (R131). -/
theorem exec_advance_of_lt {s : State} (hi : s.W.i.toNat < 64) :
    exec .advance s = .next
      { s with W := { s.W with i := s.W.i + 1 }, upc := if s.W.i.toNat = 63 then .commit else .rdP } := by
  have hlast : s.W.i + 1 = 64 ↔ s.W.i.toNat = 63 := by bv_omega
  rw [exec, execAdvance, advanceOp]
  simp only [hlast]
  rfl

/-! ### The round -/

@[simp] theorem Working.resolve_r (w : Working) (bit recorded : Bool) : (w.resolve bit recorded).r = bit := by
  cases recorded <;> rfl

@[simp] theorem Working.resolve_i (w : Working) (bit recorded : Bool) : (w.resolve bit recorded).i = w.i := by
  cases recorded <;> rfl

@[simp] theorem Working.resolve_code (w : Working) (bit recorded : Bool) : (w.resolve bit recorded).code = w.code := by
  cases recorded <;> rfl

@[simp] theorem Working.resolve_count (w : Working) (bit recorded : Bool) : (w.resolve bit recorded).count = w.count := by
  cases recorded <;> rfl

/-- `W` after a whole round that read `p`, `n` and resolved to `bit`. -/
def Working.afterRound (w : Working) (p n bit recorded : Bool) : Working :=
  { ({ w with p := p, n := n } : Working).resolve bit recorded with
    i := w.i + 1
    code := romSetBit w.code w.index bit }

@[simp] theorem Working.afterRound_i (w : Working) (p n bit recorded : Bool) :
    (w.afterRound p n bit recorded).i = w.i + 1 := rfl

@[simp] theorem Working.afterRound_code (w : Working) (p n bit recorded : Bool) :
    (w.afterRound p n bit recorded).code = romSetBit w.code w.index bit := rfl

@[simp] theorem Working.afterRound_count (w : Working) (p n bit recorded : Bool) :
    (w.afterRound p n bit recorded).count = w.count := by
  simp [Working.afterRound]

/-- A round whose pair is not (1,1) and whose primitives return takes five steps (R120). -/
theorem runSteps_round {s : State} {p n a : Bool} {bus₁ bus₂ bus₃ : BusEnv} (hu : s.upc = .rdP) (hp : s.port = none)
    (hi : s.W.i.toNat < 64) (hpn : ¬(p = true ∧ n = true))
    (hfirst : s.bus.issue .readBit = some (p, bus₁)) (hsecond : bus₁.issue .readBit = some (n, bus₂))
    (hwrite : bus₂.issue (.writeBit (resolvedBit s.S s.W.count s.W.i.toNat p n)) = some (a, bus₃)) :
    runSteps 5 s = .next
      { s with
        W := s.W.afterRound p n (resolvedBit s.S s.W.count s.W.i.toNat p n) (recordsFork s.S s.W.count s.W.i.toNat p n)
        bus := bus₃
        ans := n
        trace := s.trace ++ [.rd p, .rd n, .wr (resolvedBit s.S s.W.count s.W.i.toNat p n)]
        upc := if s.W.i.toNat = 63 then .commit else .rdP } := by
  refine runSteps_of_uop hp (by rw [hu]; rfl) (exec_readPair_of_returns (by simp [hu]) hfirst hsecond) <|
    runSteps_of_uop hp rfl (exec_classify_of_no_failure hi hpn) <|
    runSteps_of_uop hp rfl (exec_writeBack_of_returns (by simpa using hwrite)) <|
    runSteps_of_uop hp rfl (exec_store _) <|
    runSteps_of_uop hp rfl (exec_advance_of_lt (by simpa using hi)) ?_
  simp [Working.afterRound, Working.index]

/-- A round whose pair is (1,1) takes two steps to the exit (R124). -/
theorem runSteps_failing_round {s : State} {bus₁ bus₂ : BusEnv} (hu : s.upc = .rdP) (hp : s.port = none)
    (hfirst : s.bus.issue .readBit = some (true, bus₁)) (hsecond : bus₁.issue .readBit = some (true, bus₂)) :
    runSteps 2 s = .next
      { s with
        S := { s.S with status := .failed }
        W := { s.W with p := true, n := true }
        bus := bus₂
        ans := true
        trace := s.trace ++ [.rd true, .rd true]
        upc := .exit } :=
  runSteps_of_uop hp (by rw [hu]; rfl) (exec_readPair_of_returns (by simp [hu]) hfirst hsecond) <|
    runSteps_of_uop hp rfl (congrArg Host.Outcome.next (classifyOp_of_failing_pair rfl rfl)) rfl

end Sys2Proof.Machine
end

section
/-! RUN refines its listing (R116): the listing's own equations, the places of the sequencer that answer to its parts, and the
simulation, part by part: the rounds, the commit, the loop, the whole RUN. -/

namespace Sys2Proof.Machine

/-! ### Runs of some number of steps -/

/-- Some number of steps leads from one state to another. -/
def Reaches (s t : State) : Prop := ∃ k, runSteps k s = .next t

theorem Reaches.refl (s : State) : Reaches s s := ⟨0, rfl⟩

theorem Reaches.trans {s t u : State} (hst : Reaches s t) (htu : Reaches t u) : Reaches s u := by
  obtain ⟨j, hj⟩ := hst
  obtain ⟨k, hk⟩ := htu
  exact ⟨j + k, (runSteps_add hj k).trans hk⟩

/-- One micro-operation, with nothing on the port. -/
theorem Reaches.of_uop {s t : State} {i : Instr} (hp : s.port = none) (hu : s.upc.uop = some i)
    (hx : exec i s = .next t) : Reaches s t :=
  ⟨1, runSteps_of_uop hp hu hx rfl⟩

/-! ### The listing's equations -/

/-- A round of the listing that ends: it read a pair, and either the pair is (1,1) or the bit was written back. -/
theorem listRounds_succ_eq_some {S : SearchState} {count : BitVec 16} {rounds i : Nat} {code : RomCode}
    {lastFork : Option (BitVec 6)} {trace : List BusEvent} {replies : List Bool} {e : RoundsEnd}
    (h : listRounds S count (rounds + 1) i code lastFork trace replies = some e) :
    (∃ rest, replies = true :: true :: rest ∧ e = .violated (trace ++ [.rd true, .rd true]) rest) ∨
      ∃ p n a rest, replies = p :: n :: a :: rest ∧ ¬(p = true ∧ n = true) ∧
        listRounds S count rounds (i + 1) (romSetBit code (BitVec.ofNat 6 i) (resolvedBit S count i p n))
          (if recordsFork S count i p n then some (BitVec.ofNat 6 i) else lastFork)
          (trace ++ [.rd p, .rd n, .wr (resolvedBit S count i p n)]) rest = some e := by
  match replies with
  | [] | [_] => simp [listRounds] at h
  | p :: n :: rest =>
    by_cases hpn : p = true ∧ n = true
    · obtain ⟨rfl, rfl⟩ := hpn
      exact .inl ⟨rest, rfl, by simpa [listRounds] using h.symm⟩
    · match rest with
      | [] => simp [listRounds, hpn] at h
      | a :: rest =>
        rw [listRounds, if_neg hpn] at h
        exact .inr ⟨p, n, a, rest, rfl, hpn, h⟩

/-- The listing's commit of a code (R110 to R112): the copy, and the emission of a code that passes the filter. -/
def RunView.commit (v : RunView) (code : RomCode) (trace : List BusEvent) (replies : List Bool) : RunView :=
  let emitted : Bool := !v.S.verifyChecksums || decide (crc8 (romBytes code) = 0)
  { S := { v.S with previousCode := code }
    count := if emitted then v.count + 1 else v.count
    out := if emitted then v.out.writeEntry v.count code else v.out
    trace := trace
    replies := replies }

theorem RunView.commit_of_passed {v : RunView} {code : RomCode}
    (h : v.S.verifyChecksums = false ∨ crc8 (romBytes code) = 0) (trace : List BusEvent) (replies : List Bool) :
    v.commit code trace replies =
      ⟨{ v.S with previousCode := code }, v.count + 1, v.out.writeEntry v.count code, trace, replies⟩ := by
  have hemitted : (!v.S.verifyChecksums || decide (crc8 (romBytes code) = 0)) = true := by simpa using h
  rw [RunView.commit, hemitted]
  rfl

theorem RunView.commit_of_discarded {v : RunView} {code : RomCode} (hv : v.S.verifyChecksums = true)
    (hcrc : crc8 (romBytes code) ≠ 0) (trace : List BusEvent) (replies : List Bool) :
    v.commit code trace replies = ⟨{ v.S with previousCode := code }, v.count, v.out, trace, replies⟩ := by
  have hemitted : (!v.S.verifyChecksums || decide (crc8 (romBytes code) = 0)) = false := by simpa [hv] using hcrc
  rw [RunView.commit, hemitted]
  rfl

/-- How the listing goes on after the rounds of a transaction. -/
def listAfterRounds (capacity : BitVec 16) (fuel : Nat) (v : RunView) : RoundsEnd → Option RunView
  | .violated trace replies =>
    some { v with S := { v.S with status := .failed }, trace := trace, replies := replies }
  | .complete code none trace replies =>
    let v' := v.commit code trace replies
    some { v' with S := { v'.S with status := .done } }
  | .complete code (some f) trace replies =>
    let v' := v.commit code trace replies
    listLoop capacity fuel { v' with S := { v'.S with previousForkPosition := forkPositionOf f } }

theorem listLoop_of_full {capacity : BitVec 16} {v : RunView} (fuel : Nat) (h : ¬ v.count < capacity) :
    listLoop capacity fuel v = some v := by
  cases fuel <;> rw [listLoop, if_neg h]

theorem listLoop_zero_eq_some {capacity : BitVec 16} {v v' : RunView} (h : listLoop capacity 0 v = some v') :
    ¬ v.count < capacity ∧ v = v' := by
  rw [listLoop] at h
  split at h
  · cases h
  · exact ⟨‹_›, Option.some.inj h⟩

/-- A transaction of the listing that ends: no presence, or a reset and a command and then the rounds. -/
theorem listLoop_succ_eq_some {capacity : BitVec 16} {fuel : Nat} {v v' : RunView} (hroom : v.count < capacity)
    (h : listLoop capacity (fuel + 1) v = some v') :
    (∃ rest, v.replies = false :: rest ∧
      v' = { v with S := { v.S with status := .failed }, trace := v.trace ++ [.rst false], replies := rest }) ∨
      ∃ a rest e, v.replies = true :: a :: rest ∧
        listRounds v.S v.count 64 0 0 none (v.trace ++ [.rst true, .cmd v.S.command]) rest = some e ∧
        listAfterRounds capacity fuel v e = some v' := by
  rw [listLoop, if_pos hroom] at h
  match hr : v.replies with
  | [] => simp [hr] at h
  | false :: rest => exact .inl ⟨rest, rfl, by simpa [hr] using h.symm⟩
  | [true] => simp [hr] at h
  | true :: a :: rest =>
    simp only [hr] at h
    generalize he : listRounds v.S v.count 64 0 0 none (v.trace ++ [.rst true, .cmd v.S.command]) rest = ended at h
    match ended, h with
    | some (.violated _ _), h => exact .inr ⟨a, rest, _, rfl, he, h⟩
    | some (.complete _ none _ _), h => exact .inr ⟨a, rest, _, rfl, he, h⟩
    | some (.complete _ (some _) _ _), h => exact .inr ⟨a, rest, _, rfl, he, h⟩

theorem listRun_of_terminal {capacity : BitVec 16} {fuel : Nat} {v : RunView} (h : v.S.status ≠ .more) :
    listRun capacity fuel v = some { v with count := 0 } := by
  rw [listRun, if_neg h]

theorem listRun_of_more_eq_some {capacity : BitVec 16} {fuel : Nat} {v v' : RunView} (hmore : v.S.status = .more)
    (h : listRun capacity fuel v = some v') :
    ∃ v'', listLoop capacity fuel { v with count := 0 } = some v'' ∧
      v' = { v'' with S := { v''.S with isFirstTransaction := false } } := by
  rw [listRun, if_pos hmore] at h
  split at h
  · cases h
  · exact ⟨_, ‹_›, (Option.some.inj h).symm⟩

/-! ### The sequencer as the listing sees it -/

/-- The fork record as the listing carries it. -/
def Working.lastFork (w : Working) : Option (BitVec 6) := if w.lfValid then some w.lfPos else none

theorem Working.lastFork_afterRound (w : Working) (p n bit recorded : Bool) :
    (w.afterRound p n bit recorded).lastFork = if recorded then some w.index else w.lastFork := by
  cases recorded <;> rfl

/-- What the listing carries, read off a state with a script of replies. -/
def State.view (s : State) (replies : List Bool) : RunView := ⟨s.S, s.W.count, s.out, s.trace, replies⟩

/-- From `s` the sequencer comes to the place `u` with what the listing has come to, the port, the held operands, the host's program
and what was given back as in `s`. -/
def ComesTo (u : MicroPc) (s : State) (v : RunView) : Prop :=
  ∃ w a,
    Reaches s { s with S := v.S, W := w, ans := a, out := v.out, trace := v.trace, bus := .script v.replies, upc := u } ∧
      w.count = v.count

/-- A run that leaves the host's side as it was may come first. -/
theorem ComesTo.of_reaches {u u' : MicroPc} {s : State} {S : SearchState} {w : Working} {a : Bool} {out : Memory}
    {trace : List BusEvent} {bus : BusEnv} {v : RunView}
    (h : Reaches s { s with S := S, W := w, ans := a, out := out, trace := trace, bus := bus, upc := u })
    (hv : ComesTo u' { s with S := S, W := w, ans := a, out := out, trace := trace, bus := bus, upc := u } v) :
    ComesTo u' s v := by
  obtain ⟨w', a', hr, hcount⟩ := hv
  exact ⟨w', a', h.trans hr, hcount⟩

theorem ComesTo.trans {u u' : MicroPc} {s : State} {v v' : RunView} (h : ComesTo u s v)
    (hnext : ∀ w a, w.count = v.count → ComesTo u'
      { s with S := v.S, W := w, ans := a, out := v.out, trace := v.trace, bus := .script v.replies, upc := u } v') :
    ComesTo u' s v' := by
  obtain ⟨w, a, hr, hcount⟩ := h
  exact .of_reaches hr (hnext w a hcount)

/-- From `s` the sequencer comes to the end of the rounds that the listing has come to: the commit, with the code and the fork record in
`W`, or the exit. -/
def ComesToRoundsEnd (s : State) : RoundsEnd → Prop
  | .violated trace replies =>
    ComesTo .exit s ⟨{ s.S with status := .failed }, s.W.count, s.out, trace, replies⟩
  | .complete code lastFork trace replies =>
    ∃ w a, Reaches s { s with W := w, ans := a, trace := trace, bus := .script replies, upc := .commit } ∧
      w.count = s.W.count ∧ w.code = code ∧ w.lastFork = lastFork

/-- What holds from a state that a run comes to with `S`, `OUT` and the count untouched holds from the start of the run. -/
theorem ComesToRoundsEnd.of_reaches {s : State} {w : Working} {a : Bool} {trace : List BusEvent} {bus : BusEnv}
    {u : MicroPc} {e : RoundsEnd} (h : Reaches s { s with W := w, ans := a, trace := trace, bus := bus, upc := u })
    (hcount : w.count = s.W.count)
    (he : ComesToRoundsEnd { s with W := w, ans := a, trace := trace, bus := bus, upc := u } e) :
    ComesToRoundsEnd s e := by
  cases e with
  | violated trace replies =>
    obtain ⟨w', a', hr, hc⟩ := he
    exact ⟨w', a', h.trans hr, hc.trans hcount⟩
  | complete code lastFork trace replies =>
    obtain ⟨w', a', hr, hc, hw⟩ := he
    exact ⟨w', a', h.trans hr, hc.trans hcount, hw⟩

/-! ### The rounds -/

/-- From the first read of a round, or from the commit after the last one, the sequencer follows the listing's rounds (R106, R120). -/
theorem comesToRoundsEnd_of_listRounds (rounds : Nat) {s : State} {replies : List Bool} {e : RoundsEnd}
    (hu : s.upc = if rounds = 0 then .commit else .rdP) (hp : s.port = none) (hbus : s.bus = .script replies)
    (hi : s.W.i.toNat + rounds = 64)
    (h : listRounds s.S s.W.count rounds s.W.i.toNat s.W.code s.W.lastFork s.trace replies = some e) :
    ComesToRoundsEnd s e := by
  induction rounds generalizing s replies with
  | zero =>
    cases h
    refine ⟨s.W, s.ans, ?_, rfl, rfl, rfl⟩
    rw [← hbus, ← show s.upc = .commit from hu]
    exact .refl s
  | succ rounds ih =>
    have hu : s.upc = .rdP := by simpa using hu
    rcases listRounds_succ_eq_some h with ⟨rest, rfl, rfl⟩ | ⟨p, n, a, rest, rfl, hpn, h⟩
    · exact ⟨_, _, ⟨2, runSteps_failing_round hu hp (by rw [hbus]; rfl) rfl⟩, rfl⟩
    · have hlt : s.W.i.toNat < 64 := by omega
      have hround := runSteps_round hu hp hlt hpn (a := a) (bus₃ := .script rest) (by rw [hbus]; rfl) rfl rfl
      have hi' : (s.W.i + 1).toNat = s.W.i.toNat + 1 := by bv_omega
      refine .of_reaches ⟨5, hround⟩ (Working.afterRound_count ..) (ih ?_ hp rfl ?_ ?_)
      · simp only [show s.W.i.toNat = 63 ↔ rounds = 0 by omega]
      · simp only [Working.afterRound_i, hi']
        omega
      · simp only [Working.afterRound_i, Working.afterRound_code, Working.afterRound_count,
          Working.lastFork_afterRound, hi']
        rwa [Working.ofNat_i] at h

/-! ### The commit -/

section
variable {s : State} {replies : List Bool} {v : RunView} (hu : s.upc = .commit) (hp : s.port = none)
  (hbus : s.bus = .script replies) (hroom : s.W.count < s.capacity)
  (hv : v = (s.view replies).commit s.W.code s.trace replies)
include hu hp hbus hroom hv

/-- The commit's micro-operations up to the Done test follow the listing's commit, and leave the fork record alone (R110 to R112). -/
theorem reaches_commitDone :
    ∃ w, Reaches s
        { s with S := v.S, W := w, out := v.out, trace := v.trace, bus := .script v.replies, upc := .commitDone } ∧
      w.count = v.count ∧ w.lfValid = s.W.lfValid ∧ w.lfPos = s.W.lfPos := by
  have hcopy : Reaches s _ := .of_uop hp (by rw [hu]; rfl) (exec_commit s)
  subst hv
  cases hverify : s.S.verifyChecksums with
  | false =>
    have hfilter := hcopy.trans (.of_uop hp rfl (exec_crcFilter_of_unverified hverify))
    have hemit := hfilter.trans (.of_uop hp rfl (exec_emit_of_room hroom))
    rw [RunView.commit_of_passed (.inl hverify), ← hbus]
    exact ⟨_, hemit, rfl, rfl, rfl⟩
  | true =>
    have hfilter := hcopy.trans (.of_uop hp rfl (exec_crcFilter_of_verified hverify))
    by_cases hcrc : crc8 (romBytes s.W.code) = 0
    · rw [if_pos hcrc] at hfilter
      have hemit := hfilter.trans (.of_uop hp rfl (exec_emit_of_room hroom))
      rw [RunView.commit_of_passed (.inr hcrc), ← hbus]
      exact ⟨_, hemit, rfl, rfl, rfl⟩
    · rw [if_neg hcrc] at hfilter
      rw [RunView.commit_of_discarded hverify hcrc, ← hbus]
      exact ⟨_, hfilter, rfl, rfl, rfl⟩

/-- Without a recorded fork the commit ends at the exit, the status Done (R113). -/
theorem comesTo_exit_of_no_fork (hlf : s.W.lfValid = false) :
    ComesTo .exit s { v with S := { v.S with status := .done } } := by
  obtain ⟨w, hdone, hcount, hvalid, -⟩ := reaches_commitDone hu hp hbus hroom hv
  exact ⟨w, _, hdone.trans (.of_uop hp rfl (exec_doneTest_of_no_fork (hvalid.trans hlf))), hcount⟩

/-- With a recorded fork the commit ends at the loop test, the fork position saved (R114). -/
theorem comesTo_loop_of_fork (hlf : s.W.lfValid = true) :
    ComesTo .loop s { v with S := { v.S with previousForkPosition := forkPositionOf s.W.lfPos } } := by
  obtain ⟨w, hdone, hcount, hvalid, hpos⟩ := reaches_commitDone hu hp hbus hroom hv
  have hsave := hdone.trans (.of_uop hp rfl (exec_doneTest_of_fork (hvalid.trans hlf)))
  rw [← hpos]
  exact ⟨w, _, hsave.trans (.of_uop hp rfl (exec_saveFork _)), hcount⟩

end

/-! ### The loop -/

/-- A transaction whose primitives return comes to the end of the rounds that the listing has come to (R103, R105, R106). -/
theorem comesToRoundsEnd_of_presence {s : State} {a : Bool} {replies : List Bool} {e : RoundsEnd} (hu : s.upc = .loop)
    (hp : s.port = none) (hbus : s.bus = .script (true :: a :: replies)) (hroom : s.W.count < s.capacity)
    (h : listRounds s.S s.W.count 64 0 0 none (s.trace ++ [.rst true, .cmd s.S.command]) replies = some e) :
    ComesToRoundsEnd s e := by
  have hbegin := runSteps_of_uop hp (by rw [hu]; rfl) (exec_loopTest_of_room hroom)
    (runSteps_transaction_begin (a := a) (bus'' := .script replies) rfl hp (by rw [hbus]; rfl) rfl)
  exact .of_reaches ⟨_, hbegin⟩ rfl (comesToRoundsEnd_of_listRounds 64 rfl hp rfl rfl h)

/-- With the capacity reached the loop test goes to the exit (R102). -/
theorem comesTo_exit_of_full {s : State} {replies : List Bool} (hu : s.upc = .loop) (hp : s.port = none)
    (hbus : s.bus = .script replies) (hfull : ¬ s.W.count < s.capacity) : ComesTo .exit s (s.view replies) := by
  have htest := Reaches.of_uop hp (by rw [hu]; rfl) (exec_loopTest_of_full hfull)
  refine ⟨s.W, s.ans, ?_, rfl⟩
  rwa [show BusEnv.script (s.view replies).replies = s.bus from hbus.symm]

/-- Without presence the transaction ends at the exit, the status Failed (R104). -/
theorem comesTo_exit_of_no_presence {s : State} {replies : List Bool} (hu : s.upc = .loop) (hp : s.port = none)
    (hbus : s.bus = .script (false :: replies)) (hroom : s.W.count < s.capacity) :
    ComesTo .exit s ⟨{ s.S with status := .failed }, s.W.count, s.out, s.trace ++ [.rst false], replies⟩ := by
  have htest := Reaches.of_uop hp (by rw [hu]; rfl) (exec_loopTest_of_room hroom)
  have hreset : s.bus.issue .reset = some (false, .script replies) := by
    rw [hbus]
    rfl
  exact ⟨_, _, htest.trans (.of_uop hp rfl (exec_txBegin_of_no_presence hreset)), rfl⟩

/-- After its rounds a transaction goes to the exit, or back to the loop test with the fork position saved; from there on `hloop`
says that the sequencer follows the listing. -/
theorem comesTo_exit_of_listAfterRounds {fuel : Nat} {s : State} {replies : List Bool} {e : RoundsEnd} {v : RunView}
    (hp : s.port = none) (hroom : s.W.count < s.capacity) (hend : ComesToRoundsEnd s e)
    (h : listAfterRounds s.capacity fuel (s.view replies) e = some v)
    (hloop : ∀ {t : State} {rest : List Bool}, t.upc = .loop → t.port = none → t.bus = .script rest →
      listLoop t.capacity fuel (t.view rest) = some v → ComesTo .exit t v) :
    ComesTo .exit s v := by
  cases e with
  | violated trace rest =>
    cases h
    exact hend
  | complete code lastFork trace rest =>
    obtain ⟨w, a, hreach, hcount, rfl, rfl⟩ := hend
    have hview : (s.view replies).commit w.code trace rest =
        (State.view { s with W := w, ans := a, trace := trace, bus := .script rest, upc := .commit } rest).commit
          w.code trace rest := by
      simp [RunView.commit, State.view, hcount]
    refine .of_reaches hreach ?_
    cases hlf : w.lfValid with
    | false =>
      rw [Working.lastFork, hlf] at h
      cases h
      exact comesTo_exit_of_no_fork rfl hp rfl (hcount ▸ hroom) hview hlf
    | true =>
      rw [Working.lastFork, hlf] at h
      refine .trans (comesTo_loop_of_fork rfl hp rfl (hcount ▸ hroom) hview hlf) fun w' a' hcount' => hloop rfl hp rfl ?_
      simp only [State.view, hcount']
      exact h

/-- From the loop test the sequencer follows the listing's loop to the exit (R102 to R114). -/
theorem comesTo_exit_of_listLoop (fuel : Nat) {s : State} {replies : List Bool} {v : RunView} (hu : s.upc = .loop)
    (hp : s.port = none) (hbus : s.bus = .script replies) (h : listLoop s.capacity fuel (s.view replies) = some v) :
    ComesTo .exit s v := by
  induction fuel generalizing s replies with
  | zero =>
    obtain ⟨hfull, rfl⟩ := listLoop_zero_eq_some h
    exact comesTo_exit_of_full hu hp hbus hfull
  | succ fuel ih =>
    by_cases hroom : s.W.count < s.capacity
    · rcases listLoop_succ_eq_some hroom h with ⟨rest, hr, rfl⟩ | ⟨a, rest, e, hr, hrounds, hafter⟩
      · exact comesTo_exit_of_no_presence hu hp (hbus.trans (congrArg _ hr)) hroom
      · have hend := comesToRoundsEnd_of_presence hu hp (hbus.trans (congrArg _ hr)) hroom hrounds
        exact comesTo_exit_of_listAfterRounds hp hroom hend hafter ih
    · cases (listLoop_of_full (v := s.view replies) _ hroom).symm.trans h
      exact comesTo_exit_of_full hu hp hbus hroom

/-! ### The whole RUN -/

/-- Settles O58: the status test, the loop and the exit of the listing are the sequencer's (R116). -/
theorem runRefinesTheListing : Obligations.RunRefinesTheListing := by
  intro fuel s replies v hu hp hbus h
  by_cases hmore : s.S.status = .more
  · obtain ⟨v', hloop, rfl⟩ := listRun_of_more_eq_some hmore h
    have htest := Reaches.of_uop hp (by rw [hu]; rfl) (exec_statusTest_of_more hmore)
    obtain ⟨w, a, hexit, hcount⟩ := ComesTo.of_reaches htest (comesTo_exit_of_listLoop fuel rfl hp hbus hloop)
    obtain ⟨k, hk⟩ := hexit.trans (.of_uop hp rfl (exec_exit _))
    exact ⟨k, _, hk, rfl, rfl, rfl, rfl, congrArg _ hcount, rfl, rfl⟩
  · cases (listRun_of_terminal hmore).symm.trans h
    obtain ⟨k, hk⟩ := Reaches.of_uop hp (by rw [hu]; rfl) (exec_statusTest_of_terminal hmore)
    exact ⟨k, _, hk, rfl, rfl, rfl, rfl, rfl, hbus, rfl⟩

end Sys2Proof.Machine
end

section
/-! The rows that the internal selectors of a bit round choose, and the statements of family 42_bit_round about them: the pair `{p, n}`
selects a row of format PAIR (R122), the vector `{replay_ok, lt, eq}` an arm of format FORKSEL (R125 to R128). -/

namespace Sys2Proof.Machine

/-! ### The row of a pair (R75, R122) -/

/-- The row of format PAIR that stands for a class (R75). -/
def PairClass.row : PairClass → Instr
  | .fork => .pairFork
  | .zero => .pairZero
  | .one => .pairOne
  | .fail => .pairFail

theorem decode_pairCode (s : State) : decode (.pair (pairCode s)) = .instr (pairClass s.W.p s.W.n).row := by
  unfold pairCode
  cases s.W.p <;> cases s.W.n
  · exact decode_pair_fork
  · exact decode_pair_zero
  · exact decode_pair_one
  · exact decode_pair_fail

theorem exec_classify_eq_row (s : State) : exec .classify s = exec (pairClass s.W.p s.W.n).row s := by
  rw [exec, execClassify, classifyOp]
  cases pairClass s.W.p s.W.n <;> rfl

/-- The four rows are told apart by the pair alone. -/
theorem pairClass_row_iff (p n : Bool) :
    ((pairClass p n).row = .pairFork ↔ p = false ∧ n = false) ∧
      ((pairClass p n).row = .pairZero ↔ p = false ∧ n = true) ∧
      ((pairClass p n).row = .pairOne ↔ p = true ∧ n = false) ∧
      ((pairClass p n).row = .pairFail ↔ p = true ∧ n = true) := by
  cases p <;> cases n <;> decide

/-- Settles O25: CLASSIFY is the row of its class, the row that the pair code decodes to (R122). -/
theorem classifyRunsTheSelectedPairRow : Obligations.ClassifyRunsTheSelectedPairRow := fun s =>
  ⟨_, decode_pairCode s, exec_classify_eq_row s, pairClass_row_iff s.W.p s.W.n⟩

/-! ### The row of a fork's arm (R82, R125) -/

/-- The row of format FORKSEL that stands for an arm (R82). -/
def ForkArm.row : ForkArm → Instr
  | .replay => .forkReplay
  | .exhausted => .forkExhausted
  | .newBarred => .forkNewBarred
  | .newBeyond => .forkNewBeyond

theorem ForkArm.row_eq_row_iff (arm arm' : ForkArm) : arm.row = arm'.row ↔ arm = arm' := by
  cases arm <;> cases arm' <;> simp [ForkArm.row]

/-- A position is not both below and at the previous fork position, so the two impossible vectors of R80 do not arise. -/
theorem forkLt_eq_false_of_forkEq {s : State} (h : forkEq s = true) : forkLt s = false := by
  rw [forkEq_iff] at h
  simp [forkLt, h]

theorem decode_forkselCode (s : State) : decode (.forksel (forkselCode s)) = .instr (forkArm s).row := by
  unfold forkselCode forkArm
  cases heq : forkEq s with
  | true =>
    rw [forkLt_eq_false_of_forkEq heq]
    cases replayOk s <;> exact decode_forksel_exhausted rfl
  | false =>
    cases forkLt s <;> cases replayOk s
    · exact decode_forksel_newBeyond rfl
    · exact decode_forksel_newBeyond rfl
    · exact decode_forksel_newBarred
    · exact decode_forksel_replay

theorem exec_pairFork_eq_row (s : State) : exec .pairFork s = exec (forkArm s).row s := by
  rw [exec, execPairFork, pairForkOp]
  cases forkArm s <;> rfl

theorem exec_pairFork_of_arm {s : State} {arm : ForkArm} (h : forkArm s = arm) : exec .pairFork s = exec arm.row s := by
  rw [exec_pairFork_eq_row, h]

/-- The condition of NEW's row `010` (R128): REPLAY's position with REPLAY barred. -/
theorem forkArm_eq_newBarred_iff (s : State) :
    forkArm s = .newBarred ↔
      s.W.count.toNat = 0 ∧ s.S.isFirstTransaction = true ∧ s.W.i.toNat < s.S.previousForkPosition.val := by
  have hbarred : replayOk s = false ↔ s.W.count.toNat = 0 ∧ s.S.isFirstTransaction = true := by simp [replayOk]
  rw [← and_assoc, ← hbarred, ← forkLt_iff, forkArm]
  cases heq : forkEq s with
  | true => cases replayOk s <;> simp [forkLt_eq_false_of_forkEq heq]
  | false => cases replayOk s <;> cases forkLt s <;> simp

/-- The condition of NEW's row `x00` (R128). -/
theorem forkArm_eq_newBeyond_iff (s : State) :
    forkArm s = .newBeyond ↔ s.S.previousForkPosition.val < s.W.i.toNat := by
  have hbeyond : s.S.previousForkPosition.val < s.W.i.toNat ↔ forkLt s = false ∧ forkEq s = false := by
    simp [forkLt, forkEq]
    omega
  rw [hbeyond, forkArm]
  cases replayOk s <;> cases forkLt s <;> cases forkEq s <;> simp

/-- Whatever its arm, a fork writes `W` and goes to the write-back. -/
theorem pairForkOp_resolves (s : State) : ∃ w, pairForkOp s = resolved s w := by
  rcases pairForkOp_cases s with ⟨-, h⟩ | ⟨-, h⟩ | ⟨-, h⟩ <;> rw [h]
  · unfold forkReplayOp
    split <;> exact ⟨_, rfl⟩
  · exact ⟨_, rfl⟩
  · exact ⟨_, rfl⟩

/-- Settles O29: the fork is the row of its arm, the row that the FORKSEL vector decodes to, and each row is chosen exactly under its
arm's condition (R125). -/
theorem forkTakesTheSelectedArm : Obligations.ForkTakesTheSelectedArm := by
  intro s
  refine ⟨(forkArm s).row, decode_forkselCode s, exec_pairFork_eq_row s, ?_, ?_, ?_, ?_, ?_⟩
  · obtain ⟨w, hw⟩ := pairForkOp_resolves s
    exact ⟨_, rfl, pairForkOp_upc s, by rw [hw]; rfl⟩
  · rw [← forkArm_eq_replay_iff]
    exact ForkArm.row_eq_row_iff _ .replay
  · rw [← forkArm_eq_exhausted_iff]
    exact ForkArm.row_eq_row_iff _ .exhausted
  · rw [← forkArm_eq_newBarred_iff]
    exact ForkArm.row_eq_row_iff _ .newBarred
  · rw [← forkArm_eq_newBeyond_iff]
    exact ForkArm.row_eq_row_iff _ .newBeyond

/-! ### What each arm does (R126 to R128) -/

theorem exec_forkReplay_of_one {s : State} (hi : s.W.i.toNat < 64)
    (hbit : s.S.previousCode.getLsbD s.W.i.toNat = true) :
    exec .forkReplay s = .next { s with W := { s.W with r := true }, upc := .wrBit } := by
  rw [exec, execForkReplay, forkReplayOp, romGetBit_index _ hi, if_pos hbit]
  rfl

theorem exec_forkReplay_of_zero {s : State} (hi : s.W.i.toNat < 64)
    (hbit : s.S.previousCode.getLsbD s.W.i.toNat = false) :
    exec .forkReplay s =
      .next { s with W := { s.W with r := false, lfValid := true, lfPos := s.W.index }, upc := .wrBit } := by
  rw [exec, execForkReplay, forkReplayOp, romGetBit_index _ hi, if_neg (by simp [hbit])]
  rfl

theorem exec_forkExhausted (s : State) :
    exec .forkExhausted s = .next { s with W := { s.W with r := true }, upc := .wrBit } := rfl

theorem exec_forkNewBeyond (s : State) :
    exec .forkNewBeyond s =
      .next { s with W := { s.W with r := false, lfValid := true, lfPos := s.W.index }, upc := .wrBit } := rfl

/-- The two rows of NEW have one effect. -/
theorem exec_forkNewBarred (s : State) : exec .forkNewBarred s = exec .forkNewBeyond s := rfl

/-- Settles O30: the fork below the previous fork position is REPLAY's, and its two outcomes are the two bits (R126). -/
theorem replayRepeatsThePreviousBit : Obligations.ReplayRepeatsThePreviousBit := by
  refine fun s hi => ⟨fun hok hlt => ?_, exec_forkReplay_of_one hi, fun hbit => ?_⟩
  · exact exec_pairFork_of_arm ((forkArm_eq_replay_iff s).mpr ⟨hok, hlt⟩)
  · exact ⟨_, exec_forkReplay_of_zero hi hbit, Working.index_toNat hi, rfl⟩

/-- Settles O31: EXHAUSTED's effect, and its condition that reads the position alone (R127). -/
theorem exhaustedForkForcesOne : Obligations.ExhaustedForkForcesOne := fun s =>
  ⟨exec_forkExhausted s, fun heq => exec_pairFork_of_arm ((forkArm_eq_exhausted_iff s).mpr heq)⟩

/-- Settles O32: the one effect of NEW's two rows, and the condition of each (R128). -/
theorem newForkTakesZeroAndIsRecorded : Obligations.NewForkTakesZeroAndIsRecorded := by
  refine fun s hi => ⟨?_, fun hbeyond => ?_, fun hlt hcount hfirst => ?_⟩
  · exact ⟨_, (exec_forkNewBarred s).trans (exec_forkNewBeyond s), exec_forkNewBeyond s, Working.index_toNat hi, rfl⟩
  · exact exec_pairFork_of_arm ((forkArm_eq_newBeyond_iff s).mpr hbeyond)
  · exact exec_pairFork_of_arm ((forkArm_eq_newBarred_iff s).mpr ⟨hcount, hfirst, hlt⟩)

end Sys2Proof.Machine
end

section
/-! The statements of family 42_bit_round about the micro-operations of a round (R121, R124, R130, R131) and about BIT_ROUND, which is
the five of them in order (R120). -/

namespace Sys2Proof.Machine

/-! ### The micro-operations of a round by themselves -/

/-- Settles O24: the pair read of a place whose first read is still to be made (R121). -/
theorem readPairTakesTheTrueBitFirst : Obligations.ReadPairTakesTheTrueBitFirst := fun _ _ _ _ _ =>
  exec_readPair_of_returns

theorem exec_classify_of_failing_pair {s : State} (hp : s.W.p = true) (hn : s.W.n = true) :
    exec .classify s = .next { s with S := { s.S with status := .failed }, upc := .exit } :=
  congrArg Host.Outcome.next (classifyOp_of_failing_pair hp hn)

/-- Settles O27: the failing pair's classification leads to the exit, whose step ends the RUN (R124, R115). -/
theorem failingPairEndsTheRun : Obligations.FailingPairEndsTheRun := by
  refine fun s => ⟨rfl, fun hp hn hu hport => ?_⟩
  exact runSteps_of_uop hport (by rw [hu]; rfl) (exec_classify_of_failing_pair hp hn) <|
    runSteps_of_uop hport rfl (exec_exit _) rfl

/-- SETBIT's result bit by bit (R141). -/
theorem getLsbD_romSetBit (v : RomCode) (i : BitVec 6) (b : Bool) {j : Nat} (hj : j < 64) :
    (romSetBit v i b).getLsbD j = if j = i.toNat then b else v.getLsbD j := by
  have hmask : ((1 : RomCode) <<< i.toNat).getLsbD j = decide (j = i.toNat) := by
    rw [show (1 : RomCode) <<< i.toNat = BitVec.twoPow 64 i.toNat from (BitVec.twoPow_eq ..).symm,
      BitVec.getLsbD_twoPow]
    simp [eq_comm]
    omega
  cases b with
  | false =>
    rw [romSetBit, if_neg (by decide), BitVec.getLsbD_and, BitVec.getLsbD_not, hmask]
    split <;> simp [*]
  | true =>
    rw [romSetBit, if_pos rfl, BitVec.getLsbD_or, hmask]
    split <;> simp [*]

/-- Settles O35: the store sets bit `W.i` of the accumulator (R130). -/
theorem storeWritesBitI : Obligations.StoreWritesBitI := by
  intro s hi
  refine ⟨_, exec_store s, fun j hj => ?_, rfl⟩
  rw [← Working.index_toNat hi]
  exact getLsbD_romSetBit _ _ _ hj

/-- The seven bits of `W.i` hold 64, so no position wraps (R131). -/
theorem Working.i_add_one_toNat {w : Working} (hi : w.i.toNat < 64) : (w.i + 1).toNat = w.i.toNat + 1 := by
  bv_omega

/-- Settles O36: the advance, at 63 to the commit (R131). -/
theorem advanceByOneToRoundOrCommit : Obligations.AdvanceByOneToRoundOrCommit := fun _ hi =>
  ⟨_, exec_advance_of_lt hi, Working.i_add_one_toNat hi, rfl⟩

/-! ### BIT_ROUND (R120) -/

theorem whenAt_of_at {u : MicroPc} {f : State → State} {s : State} (h : s.upc = u) : whenAt u f s = f s := if_pos h

theorem whenAt_of_not_at {u : MicroPc} {f : State → State} {s : State} (h : s.upc ≠ u) : whenAt u f s = s := if_neg h

/-- From RD_P the round begins with the pair read. -/
theorem bitRoundOp_of_rdP {s : State} (hu : s.upc = .rdP) :
    bitRoundOp s = whenAt .wrAdvance advanceOp (whenAt .wrStore storeOp (whenAt .wrBit writeBackOp
      (whenAt .resolve classifyOp (readPairOp s)))) := by
  simp [bitRoundOp, hu, MicroPc.phase, State.goto_self hu]

/-- Micro-operations that each end at the next one's place make up a BIT_ROUND. -/
theorem exec_bitRound_of_microOperations {s s₁ s₂ s₃ s₄ s₅ : State} (hu : s.upc = .rdP)
    (hread : exec .readPair s = .next s₁) (hu₁ : s₁.upc = .resolve)
    (hclassify : exec .classify s₁ = .next s₂) (hu₂ : s₂.upc = .wrBit)
    (hwrite : exec .writeBack s₂ = .next s₃) (hu₃ : s₃.upc = .wrStore)
    (hstore : exec .store s₃ = .next s₄) (hadvance : exec .advance s₄ = .next s₅) :
    exec .bitRound s = .next s₅ := by
  cases hread
  cases hclassify
  cases hwrite
  cases hstore
  cases hadvance
  rw [exec, execBitRound, bitRoundOp_of_rdP hu, whenAt_of_at hu₁, whenAt_of_at hu₂, whenAt_of_at hu₃,
    whenAt_of_at (storeOp_upc _)]

/-- A classification that ends at the exit ends the BIT_ROUND (R124). -/
theorem exec_bitRound_of_exit {s s₁ s₂ : State} (hu : s.upc = .rdP)
    (hread : exec .readPair s = .next s₁) (hu₁ : s₁.upc = .resolve)
    (hclassify : exec .classify s₁ = .next s₂) (hu₂ : s₂.upc = .exit) : exec .bitRound s = .next s₂ := by
  cases hread
  cases hclassify
  have hne {u : MicroPc} (h : .exit ≠ u) : (classifyOp (readPairOp s)).upc ≠ u := fun hu => h (hu₂.symm.trans hu)
  rw [exec, execBitRound, bitRoundOp_of_rdP hu, whenAt_of_at hu₁, whenAt_of_not_at (hne (by decide)),
    whenAt_of_not_at (hne (by decide)), whenAt_of_not_at (hne (by decide))]

/-- A round whose pair is not (1,1) and whose primitives return comes to the same state in one BIT_ROUND as in five steps. -/
theorem exec_bitRound_eq_runSteps {s : State} {p n a : Bool} {bus₁ bus₂ bus₃ : BusEnv} (hu : s.upc = .rdP)
    (hp : s.port = none) (hi : s.W.i.toNat < 64) (hpn : ¬(p = true ∧ n = true))
    (hfirst : s.bus.issue .readBit = some (p, bus₁)) (hsecond : bus₁.issue .readBit = some (n, bus₂))
    (hwrite : bus₂.issue (.writeBit (resolvedBit s.S s.W.count s.W.i.toNat p n)) = some (a, bus₃)) :
    exec .bitRound s = runSteps 5 s := by
  rw [runSteps_round hu hp hi hpn hfirst hsecond hwrite]
  refine (exec_bitRound_of_microOperations hu (exec_readPair_of_returns (by simp [hu]) hfirst hsecond) rfl
    (exec_classify_of_no_failure hi hpn) rfl (exec_writeBack_of_returns (by simpa using hwrite)) rfl
    (exec_store _) (exec_advance_of_lt (by simpa using hi))).trans ?_
  simp [Working.afterRound, Working.index]

@[simp] theorem Working.afterRound_r (w : Working) (p n bit recorded : Bool) :
    (w.afterRound p n bit recorded).r = bit := by
  simp [Working.afterRound]

/-- The record moves to the round's position or stays as it was. -/
theorem Working.afterRound_record {w : Working} (hi : w.i.toNat < 64) (p n bit recorded : Bool) :
    if recorded then
      (w.afterRound p n bit recorded).lfValid = true ∧ (w.afterRound p n bit recorded).lfPos.toNat = w.i.toNat
    else (w.afterRound p n bit recorded).lfValid = w.lfValid ∧ (w.afterRound p n bit recorded).lfPos = w.lfPos := by
  cases recorded with
  | true => exact ⟨rfl, Working.index_toNat hi⟩
  | false => exact ⟨rfl, rfl⟩

/-- Settles O37: a round that resolves is the five steps of `runSteps_round`, a failing one ends with its classification (R120, R124). -/
theorem bitRoundIsItsMicroOperations : Obligations.BitRoundIsItsMicroOperations := by
  refine fun s p n a bus₁ bus₂ bus₃ hu hport hi hfirst hsecond => ⟨fun hwrite hpn => ?_, fun hp hn => ?_⟩
  · have hpn : ¬(p = true ∧ n = true) := by rcases hpn with rfl | rfl <;> simp
    have hsteps := runSteps_round hu hport hi hpn hfirst hsecond hwrite
    have hround := (exec_bitRound_eq_runSteps hu hport hi hpn hfirst hsecond hwrite).trans hsteps
    refine ⟨_, hround, hsteps, rfl, rfl, rfl, Working.afterRound_count .., Working.afterRound_r .., ?_, ?_,
      Working.i_add_one_toNat hi, rfl, Working.afterRound_record hi ..⟩
    · rw [Working.afterRound_r]
    · rw [Working.afterRound_r, Working.ofNat_i]
      rfl
  · subst hp hn
    exact ⟨_, exec_bitRound_of_exit hu (exec_readPair_of_returns (by simp [hu]) hfirst hsecond) rfl
      (exec_classify_of_failing_pair rfl rfl) rfl, rfl, rfl, rfl, rfl, rfl, rfl, rfl⟩

end Sys2Proof.Machine
end

section
/-! The checksum generator, and the statements of family 44_checksum: MAP is linear and loses nothing, and a checksum, which is MAP
once per byte, inherits both (R151 to R157). -/

namespace Sys2Proof.Machine

/-! ### MAP as a sum over the set bits (R151) -/

/-- The XOR of the constants `K k` over the positions `k` of a list that are set in `x`, from an accumulator: MAP's sum, for any
table of constants and any positions. -/
def xorSelected (K : Nat → Byte) (x : Byte) (acc : Byte) (positions : List Nat) : Byte :=
  positions.foldl (fun y k => if x.getLsbD k then y ^^^ K k else y) acc

theorem crcMap_eq_xorSelected (x : Byte) : crcMap x = xorSelected crcK x 0 (List.range 8) := rfl

theorem xorSelected_cons (K : Nat → Byte) (x acc : Byte) (k : Nat) (ks : List Nat) :
    xorSelected K x acc (k :: ks) = xorSelected K x (if x.getLsbD k then acc ^^^ K k else acc) ks := rfl

/-- A constant that both conditions select cancels. -/
theorem ite_xor_cancel (p q : Bool) (a b c : Byte) :
    (if (p ^^ q) then a ^^^ b ^^^ c else a ^^^ b) = (if p then a ^^^ c else a) ^^^ (if q then b ^^^ c else b) := by
  cases p <;> cases q
  · rfl
  · exact BitVec.xor_assoc a b c
  · show a ^^^ b ^^^ c = a ^^^ c ^^^ b
    ac_rfl
  · show a ^^^ b = a ^^^ c ^^^ (b ^^^ c)
    calc a ^^^ b
      _ = a ^^^ b ^^^ (c ^^^ c) := by simp
      _ = a ^^^ c ^^^ (b ^^^ c) := by ac_rfl

/-- The sum is linear in the operand and the accumulator together. -/
theorem xorSelected_xor (K : Nat → Byte) (x y : Byte) (ks : List Nat) (a b : Byte) :
    xorSelected K (x ^^^ y) (a ^^^ b) ks = xorSelected K x a ks ^^^ xorSelected K y b ks := by
  induction ks generalizing a b with
  | nil => rfl
  | cons k ks ih =>
    rw [xorSelected_cons, BitVec.getLsbD_xor, ite_xor_cancel, ih, xorSelected_cons, xorSelected_cons]

/-- MAP is linear (R151, R155). -/
theorem crcMap_xor (x y : Byte) : crcMap (x ^^^ y) = crcMap x ^^^ crcMap y := by
  simp only [crcMap_eq_xorSelected]
  exact xorSelected_xor crcK x y (List.range 8) 0 0

/-- A byte is the sum of its set bits. -/
theorem xorSelected_twoPow (x : Byte) : xorSelected (BitVec.twoPow 8) x 0 (List.range 8) = x := by
  revert x
  decide

/-- A linear function takes the sum over some constants to the sum over their images. -/
theorem map_xorSelected {f : Byte → Byte} (hf : ∀ x y, f (x ^^^ y) = f x ^^^ f y) {K L : Nat → Byte} (x : Byte)
    {ks : List Nat} (hK : ∀ k ∈ ks, f (K k) = L k) (acc : Byte) :
    f (xorSelected K x acc ks) = xorSelected L x (f acc) ks := by
  induction ks generalizing acc with
  | nil => rfl
  | cons k ks ih =>
    rw [xorSelected_cons, xorSelected_cons, ih (fun j hj => hK j (List.mem_cons_of_mem k hj)), apply_ite f, hf,
      hK k List.mem_cons_self]

/-! ### The shift register (R157) -/

/-- The shift and the test of the bit shifted out are both linear. -/
theorem shiftStep_xor (x y : Byte) : shiftStep (x ^^^ y) = shiftStep x ^^^ shiftStep y := by
  rw [shiftStep, BitVec.getLsbD_xor, BitVec.ushiftRight_xor_distrib, ite_xor_cancel, shiftStep, shiftStep]

theorem shiftEight_xor (x y : Byte) : shiftEight (x ^^^ y) = shiftEight x ^^^ shiftEight y := by
  simp only [shiftEight, shiftStep_xor]

/-- One step loses nothing: a 1 shifted out comes back as bit 7 of 0x8C. -/
theorem shiftStep_eq_zero_iff (x : Byte) : shiftStep x = 0 ↔ x = 0 := by
  revert x
  decide

theorem shiftEight_eq_zero_iff (x : Byte) : shiftEight x = 0 ↔ x = 0 := by
  simp only [shiftEight, shiftStep_eq_zero_iff]

/-- The constants are the images of the single bits (R157). -/
theorem shiftEight_twoPow : ∀ k < 8, shiftEight (BitVec.twoPow 8 k) = crcK k := by decide

/-- MAP and the shift register are linear and agree on the single bits (R157). -/
theorem crcMap_eq_shiftEight (x : Byte) : crcMap x = shiftEight x :=
  calc crcMap x
    _ = xorSelected crcK x (shiftEight 0) (List.range 8) := crcMap_eq_xorSelected x
    _ = shiftEight (xorSelected (BitVec.twoPow 8) x 0 (List.range 8)) :=
      (map_xorSelected shiftEight_xor x (fun k hk => shiftEight_twoPow k (List.mem_range.mp hk)) 0).symm
    _ = shiftEight x := by rw [xorSelected_twoPow]

/-! ### MAP is a bijection (R155) -/

theorem crcMap_eq_zero_iff (x : Byte) : crcMap x = 0 ↔ x = 0 := by
  rw [crcMap_eq_shiftEight, shiftEight_eq_zero_iff]

/-- A linear function that maps only 0 to 0 is injective. -/
theorem crcMap_injective : Function.Injective crcMap := fun x y h => by
  have hxor : crcMap (x ^^^ y) = 0 := (crcMap_xor x y).trans (BitVec.xor_eq_zero_iff.mpr h)
  exact BitVec.xor_eq_zero_iff.mp ((crcMap_eq_zero_iff _).mp hxor)

theorem crcMap_bijective : Function.Bijective crcMap := Finite.injective_iff_bijective.mp crcMap_injective

/-! ### The accumulation (R152) -/

theorem crcFold_cons (acc b : Byte) (bs : List Byte) : crcFold acc (b :: bs) = crcFold (crcMap (acc ^^^ b)) bs := rfl

theorem crcFold_append (acc : Byte) (bs cs : List Byte) : crcFold acc (bs ++ cs) = crcFold (crcFold acc bs) cs := by
  induction bs generalizing acc with
  | nil => rfl
  | cons b bs ih => exact ih _

/-- One more byte is one more MAP (R152). -/
theorem crc8_append_singleton (bs : List Byte) (b : Byte) : crc8 (bs ++ [b]) = crcMap (crc8 bs ^^^ b) :=
  crcFold_append 0 bs [b]

/-- The accumulation is linear in the accumulator and the bytes together (R155). -/
theorem crcFold_xor {as bs : List Byte} (h : as.length = bs.length) (u v : Byte) :
    crcFold (u ^^^ v) (List.zipWith (· ^^^ ·) as bs) = crcFold u as ^^^ crcFold v bs := by
  induction as generalizing bs u v with
  | nil =>
    obtain rfl := List.length_eq_zero_iff.mp h.symm
    rfl
  | cons a as ih =>
    obtain ⟨b, bs, rfl⟩ := List.exists_cons_of_length_eq_add_one h.symm
    have hmap : crcMap (u ^^^ v ^^^ (a ^^^ b)) = crcMap (u ^^^ a) ^^^ crcMap (v ^^^ b) := by
      rw [← crcMap_xor]
      congr 1
      ac_rfl
    rw [List.zipWith_cons_cons, crcFold_cons, hmap, ih (Nat.succ.inj h), crcFold_cons, crcFold_cons]

/-- The bytes still to come tell two accumulators apart, since MAP does. -/
theorem crcFold_inj (bs : List Byte) {u v : Byte} : crcFold u bs = crcFold v bs ↔ u = v := by
  induction bs generalizing u v with
  | nil => rfl
  | cons b bs ih => rw [crcFold_cons, crcFold_cons, ih, crcMap_injective.eq_iff, BitVec.xor_left_inj]

/-- A change of one byte is always found, whatever bits it changes. -/
theorem crcFold_set_eq_iff {bs : List Byte} {k : Nat} (hk : k < bs.length) (acc b : Byte) :
    crcFold acc (bs.set k b) = crcFold acc bs ↔ b = bs[k] := by
  induction bs generalizing k acc with
  | nil => cases hk
  | cons c bs ih =>
    cases k with
    | zero =>
      rw [List.set_cons_zero, crcFold_cons, crcFold_cons, crcFold_inj, crcMap_injective.eq_iff, BitVec.xor_right_inj]
      rfl
    | succ k => exact ih (Nat.lt_of_succ_lt_succ hk) _

/-! ### The rows -/

/-- CHECKSUM on an idle block (R153): the whole next state. -/
theorem exec_checksum_of_idle {s : State} (h : s.upc = .idle) (input : List Byte) :
    exec (.checksum input) s =
      .next { s with
        W := { s.W with crc := crc8 input, k := BitVec.ofNat 16 input.length }, result := .byte (crc8 input) } := by
  rw [exec, execChecksum, whenIdle_idle h, crcCompute_eq]
  rfl

/-- CRC8 as a row of its own (R152): the whole next state. -/
theorem exec_crc8 (input : List Byte) (s : State) :
    exec (.crc8 input) s =
      .next { s with W := { s.W with crc := crc8 input, k := BitVec.ofNat 16 input.length } } := by
  rw [exec, execCrc8, crcCompute_eq]

/-! ### The statements -/

/-- Settles O43: an accumulation over one more byte is one more MAP (R152). -/
theorem crcAccumulatesByteByByte : Obligations.CrcAccumulatesByteByByte :=
  ⟨rfl, crc8_append_singleton, fun bs s => ⟨_, exec_crc8 bs s, rfl, rfl⟩⟩

/-- Settles O45: the accumulation inherits MAP's linearity, and a linear MAP with kernel 0 on finitely many bytes is a bijection (R155). -/
theorem checksumIsLinear : Obligations.ChecksumIsLinear :=
  ⟨fun _ _ h => crcFold_xor h 0 0, crcMap_bijective, crcMap_eq_zero_iff⟩

/-- Settles O46: the last MAP is 0 only where the check byte cancels the checksum so far, and a flipped bit is a changed byte (R156). -/
theorem checkByteIsUniqueAndFlipsAreFound : Obligations.CheckByteIsUniqueAndFlipsAreFound := by
  refine ⟨fun bs c => ?_, fun bs k j hk hj hzero hflip => ?_, by decide⟩
  · rw [crc8_append_singleton]
    exact (crcMap_eq_zero_iff _).trans (BitVec.xor_eq_zero_iff.trans eq_comm)
  · have hbyte : bs[k] ^^^ BitVec.twoPow 8 j = bs[k] := (crcFold_set_eq_iff hk 0 _).mp (hflip.trans hzero.symm)
    have hbit : (bs[k] ^^^ BitVec.twoPow 8 j).getLsbD j = bs[k].getLsbD j := by rw [hbyte]
    simp [hj] at hbit

/-- Settles O44: an idle block, initialised or not, gives the checksum back and changes `W.crc` and `W.k` besides (R153). -/
theorem checksumReturnsTheCrc : Obligations.ChecksumReturnsTheCrc := fun input _ hu =>
  ⟨_, exec_checksum_of_idle hu input, rfl, fun hnil => by rw [hnil]; rfl, rfl⟩

/-- Settles O47: two linear functions that agree on the single bits agree (R157). -/
theorem mapIsTheShiftRegister : Obligations.MapIsTheShiftRegister :=
  ⟨crcMap_eq_shiftEight, shiftEight_twoPow, by decide⟩

end Sys2Proof.Machine
end

section
/-! What the block answers to a host operation it does not run (R173), and the statements of family 60_exceptions: the forbidden uses, a
RUN on a terminal status (R174), and a failure's entry and exit (R164). -/

namespace Sys2Proof.Machine

/-! ### A host action on the port -/

/-- An action on the port comes before everything else (log entry 7). -/
theorem fetch_of_port {s : State} {a : HostAction} (hp : s.port = some a) : fetch s = accept a { s with port := none } := by
  rw [fetch, hp]

theorem step_of_fetched_instr {s s' : State} {i : Instr} (h : fetch s = .instr i s') : step s = exec i s' := by
  rw [step, h]

theorem step_of_fetch_refused {s : State} {r : Refusal} (h : fetch s = .refused r) : step s = .refused r := by
  rw [step, h]

theorem accept_of_decoded {ports : HostPorts} {i : Instr} (hd : decode (.op ports) = .instr i) (s : State) :
    accept (.operation ports) s = .instr i s := by
  rw [accept, hd]

theorem accept_of_rejected {ports : HostPorts} {e : DecodeError} (hd : decode (.op ports) = .rejected e) (s : State) :
    accept (.operation ports) s = .refused (.undecodable e) := by
  rw [accept, hd]

theorem step_of_port_decoded {s : State} {ports : HostPorts} {i : Instr} (hp : s.port = some (.operation ports))
    (hd : decode (.op ports) = .instr i) : step s = exec i { s with port := none } :=
  step_of_fetched_instr ((fetch_of_port hp).trans (accept_of_decoded hd _))

theorem step_of_port_rejected {s : State} {ports : HostPorts} {e : DecodeError} (hp : s.port = some (.operation ports))
    (hd : decode (.op ports) = .rejected e) : step s = .refused (.undecodable e) :=
  step_of_fetch_refused ((fetch_of_port hp).trans (accept_of_rejected hd _))

theorem step_of_port_hostWrite {s : State} {f : SField} {v : BitVec 64} (hp : s.port = some (.writeField f v)) :
    step s = .refused .hostWrite :=
  step_of_fetch_refused (fetch_of_port hp)

/-! ### Host operations that are refused (R173) -/

/-- Whatever operation the port decodes to, a busy block refuses it (R173(b)). -/
theorem exec_hostOperation_of_busy {ports : HostPorts} {i : Instr} {s : State} (hd : decode (.op ports) = .instr i)
    (hbusy : s.upc ≠ .idle) : exec i s = .refused .operationInProgress := by
  rcases decodeOp_cases hd with ⟨c, v, rfl⟩ | ⟨cap, buffer, -, rfl⟩ | ⟨input, rfl⟩ <;> exact whenIdle_busy hbusy _

/-- An operation presented to a busy block is refused: by the decoder when its ports hold no instruction, else by the guard. -/
theorem step_of_port_operation_of_busy {s : State} {ports : HostPorts} (hp : s.port = some (.operation ports))
    (hbusy : s.upc ≠ .idle) : ∃ r, step s = .refused r := by
  cases hd : decode (.op ports) with
  | instr i => exact ⟨_, (step_of_port_decoded hp hd).trans (exec_hostOperation_of_busy hd hbusy)⟩
  | rejected e => exact ⟨_, step_of_port_rejected hp hd⟩

/-- A RUN needs an INIT since power-on (R173(c)). -/
theorem exec_run_of_unwritten {s : State} (hu : s.upc = .idle) (hw : s.written = false) (operands : RunOperands) :
    exec (.run operands) s = .refused .runBeforeInit := by
  rw [exec, execRun, whenIdle_idle hu, if_neg (by simp [hw])]

/-! ### The two ways back to IDLE, and the failure entry -/

/-- With nothing on the port, a block at CHECK with a terminal status gives 0 back and goes idle (R101). -/
theorem step_of_check_of_terminal {s : State} (hu : s.upc = .check) (hp : s.port = none) (hs : s.S.status ≠ .more) :
    step s = .next { s with upc := .idle, result := .count 0 } :=
  (step_of_uop hp (by rw [hu]; rfl)).trans (exec_statusTest_of_terminal hs)

/-- With nothing on the port, the step of a block at EXIT is the exit (R115). -/
theorem step_of_exit {s : State} (hu : s.upc = .exit) (hp : s.port = none) :
    step s = .next
      { s with S := { s.S with isFirstTransaction := false }, result := .count s.W.count, upc := .idle } :=
  (step_of_uop hp (by rw [hu]; rfl)).trans (exec_exit s)

/-- RAISE_FAILED, whatever the cause (R164, R163): the whole next state. -/
theorem exec_raiseFailed (cause : FailCause) (s : State) :
    exec (.raiseFailed cause) s = .next { s with S := { s.S with status := .failed }, upc := .exit } := rfl

/-! ### The statements -/

/-- Settles O12: the RUN is accepted, and the status test at CHECK sends it back with count 0 (R174, R101). -/
theorem runOnTerminalStatusReturnsZero : Obligations.RunOnTerminalStatusReturnsZero := by
  intro cap buffer s hu hw hp hs
  refine ⟨_, execRun_of_accepted hu hw _, ?_⟩
  rw [hu]
  exact step_of_check_of_terminal rfl hp hs

/-- Settles O6: the decoder refuses the reserved code, the guard a busy block, RUN an unwritten bank, and the fetch a host write (R173). -/
theorem forbiddenUsesAreRefused : Obligations.ForbiddenUsesAreRefused := fun _ =>
  ⟨fun _ hop hp => step_of_port_rejected hp (decode_op_reserved hop),
    fun hbusy => ⟨fun _ _ => whenIdle_busy hbusy _, fun _ => whenIdle_busy hbusy _, fun _ => whenIdle_busy hbusy _,
      fun _ hp => step_of_port_operation_of_busy hp hbusy⟩,
    exec_run_of_unwritten, fun _ _ => step_of_port_hostWrite⟩

/-- Settles O28: the failure's entry does not read its cause, and leads to the exit, whose step ends the RUN (R164, R115). -/
theorem raiseFailedEntryAndExit : Obligations.RaiseFailedEntryAndExit := fun cause s =>
  ⟨_, exec_raiseFailed cause s, rfl, (exec_raiseFailed _ s).trans (exec_raiseFailed _ s).symm,
    fun hp => step_of_exit rfl hp⟩

end Sys2Proof.Machine
end

section
/-! The decoder and the encoder against each other, and the statements on both directions (R70 to R75, R81, R82). -/

namespace Sys2Proof

/-! ### Well-formed operands (R44, R195) -/

theorem wellFormed_run_iff (operands : RunOperands) :
    (Instr.run operands).wellFormed = true ↔ operands.buffer.length = operands.capacity.toNat := by
  simp [Instr.wellFormed, runBufferFits]

theorem wellFormed_checksum_iff (input : List Byte) :
    (Instr.checksum input).wellFormed = true ↔ input.length < 2 ^ Config.crcLenWidth := by
  simp [Instr.wellFormed, checksumLengthFits]

/-! ### The three host operations (R71 to R74) -/

/-- A buffer of exactly `capacity` entries is taken whole. -/
theorem decode_encode_run {operands : RunOperands} {sel : Selector}
    (hwf : (Instr.run operands).wellFormed = true) (h : encode (.run operands) = some sel) :
    decode sel = .instr (.run operands) := by
  have hlen := (wellFormed_run_iff operands).mp hwf
  cases h
  rw [decode_op_run rfl (Nat.le_of_eq hlen.symm)]
  simp [← hlen]

/-- A byte sequence whose length fits its port is taken whole. -/
theorem decode_encode_checksum {input : List Byte} {sel : Selector}
    (hwf : (Instr.checksum input).wellFormed = true) (h : encode (.checksum input) = some sel) :
    decode sel = .instr (.checksum input) := by
  have hport : (BitVec.ofNat Config.crcLenWidth input.length).toNat = input.length :=
    (BitVec.toNat_ofNat ..).trans (Nat.mod_eq_of_lt ((wellFormed_checksum_iff input).mp hwf))
  cases h
  rw [decode_op_checksum rfl (Nat.le_of_eq hport)]
  simp only [hport, List.take_length]

/-- Settles O3: an operand port that carries a length or a capacity carries exactly its operand's, and the other rows carry their
operands as they are. -/
theorem decodeOfEncodeIsTheInstruction : Obligations.DecodeOfEncodeIsTheInstruction := by
  intro i sel hwf h
  cases i with
  | init => cases h; exact decode_op_init rfl
  | run => exact decode_encode_run hwf h
  | checksum => exact decode_encode_checksum hwf h
  | busReset | busWriteCommand | busWriteBit | busReadBit => cases h; rfl
  | pairFork | pairZero | pairOne | pairFail => cases h; rfl
  | forkReplay | forkExhausted | forkNewBarred | forkNewBeyond => cases h; rfl
  | _ => cases h

/-! ### What decodes -/

/-- The three properties of an instruction that a selector decodes to. -/
def DecodesWell (sel : Selector) (i : Instr) : Prop :=
  i.wellFormed = true ∧ i.format = sel.format ∧ (encode i).isSome = true

/-- The host's port: a RUN keeps as many entries as its capacity, a CHECKSUM as many bytes as its length says (R195, R44). -/
theorem decodesWell_op {ports : HostPorts} {i : Instr} (h : decode (.op ports) = .instr i) : DecodesWell (.op ports) i := by
  simp only [decode, decodeOp] at h
  split at h
  · cases h
    exact ⟨rfl, rfl, rfl⟩
  · split at h
    · split at h
      · rename_i hfits
        cases h
        exact ⟨(wellFormed_run_iff _).mpr (by simpa using hfits), rfl, rfl⟩
      · cases h
    · split at h
      · split at h
        · rename_i hfits
          cases h
          refine ⟨(wellFormed_checksum_iff _).mpr ?_, rfl, rfl⟩
          rw [List.length_take_of_le hfits]
          exact ports.length.isLt
        · cases h
      · cases h

theorem decodesWell_bus (ports : BusPorts) : DecodesWell (.bus ports) (decodeBus ports) := by
  unfold decodeBus
  split
  · exact ⟨rfl, rfl, rfl⟩
  · split
    · exact ⟨rfl, rfl, rfl⟩
    · split <;> exact ⟨rfl, rfl, rfl⟩

theorem decodesWell_pair (code : BitVec 2) : DecodesWell (.pair code) (decodePair code) := by
  unfold decodePair
  split
  · exact ⟨rfl, rfl, rfl⟩
  · split
    · exact ⟨rfl, rfl, rfl⟩
    · split <;> exact ⟨rfl, rfl, rfl⟩

/-- Every vector of FORKSEL that decodes gives one of the four rows. -/
theorem decodesWell_forksel {code : BitVec 3} {i : Instr} (h : decode (.forksel code) = .instr i) :
    DecodesWell (.forksel code) i := by
  simp only [decode, decodeForksel] at h
  split at h
  · cases h
    exact ⟨rfl, rfl, rfl⟩
  · split at h
    · cases h
      exact ⟨rfl, rfl, rfl⟩
    · split at h
      · cases h
        exact ⟨rfl, rfl, rfl⟩
      · split at h <;> cases h
        exact ⟨rfl, rfl, rfl⟩

/-- Settles O4, port by port. -/
theorem decodedInstructionsAreWellFormed : Obligations.DecodedInstructionsAreWellFormed := by
  intro sel i h
  cases sel with
  | op ports => exact decodesWell_op h
  | bus ports =>
    cases h
    exact decodesWell_bus ports
  | pair code =>
    cases h
    exact decodesWell_pair code
  | forksel code => exact decodesWell_forksel h

end Sys2Proof
end

section
/-! A transaction's rounds against a script of replies (R107): every round is the five steps of `runSteps_round`, so a list of rounds is
an induction along the list. -/

namespace Sys2Proof.Machine

/-! ### What a list of rounds brings, issues and resolves to -/

/-- A round's replies: the two reads' and the write's, which is ignored. -/
abbrev RoundReplies := Bool × Bool × Bool

/-- The replies of some rounds, in the order of their primitives. -/
def scriptOf (rounds : List RoundReplies) : List Bool := rounds.flatMap fun x => [x.1, x.2.1, x.2.2]

/-- The bits that rounds from position `i` on resolve to. -/
def bitsFrom (S : SearchState) (count : BitVec 16) (i : Nat) (rounds : List RoundReplies) : List Bool :=
  rounds.mapIdx fun k x => resolvedBit S count (i + k) x.1 x.2.1

/-- The events of rounds that resolved to some bits. -/
def eventsOf (rounds : List RoundReplies) (bits : List Bool) : List BusEvent :=
  (List.zip rounds bits).flatMap fun x => [.rd x.1.1, .rd x.1.2.1, .wr x.2]

theorem bitsFrom_cons (S : SearchState) (count : BitVec 16) (i : Nat) (x : RoundReplies) (rounds : List RoundReplies) :
    bitsFrom S count i (x :: rounds) = resolvedBit S count i x.1 x.2.1 :: bitsFrom S count (i + 1) rounds := by
  simp [bitsFrom, Nat.add_comm, Nat.add_left_comm]

theorem eventsOf_cons (x : RoundReplies) (rounds : List RoundReplies) (bit : Bool) (bits : List Bool) :
    eventsOf (x :: rounds) (bit :: bits) = [.rd x.1, .rd x.2.1, .wr bit] ++ eventsOf rounds bits := rfl

/-! ### The rounds -/

/-- What rounds from position `i` on make of `W`: the position moves on, and the bits stand in the code from `i` on. -/
structure Working.AfterRounds (w : Working) (bits : List Bool) (w' : Working) : Prop where
  count : w'.count = w.count
  i : w'.i.toNat = w.i.toNat + bits.length
  below : ∀ j, j < w.i.toNat → w'.code.getLsbD j = w.code.getLsbD j
  stored : ∀ k (h : k < bits.length), w'.code.getLsbD (w.i.toNat + k) = bits[k]

theorem Working.AfterRounds.nil (w : Working) : w.AfterRounds [] w := ⟨rfl, rfl, fun _ _ => rfl, fun _ h => nomatch h⟩

/-- The store of a round at position `W.i` (R130). -/
theorem Working.getLsbD_afterRound_code {w : Working} (hi : w.i.toNat < 64) (p n bit recorded : Bool) {j : Nat} (hj : j < 64) :
    (w.afterRound p n bit recorded).code.getLsbD j = if j = w.i.toNat then bit else w.code.getLsbD j := by
  rw [Working.afterRound_code, getLsbD_romSetBit _ _ _ hj, Working.index_toNat hi]

/-- One round and then more rounds. -/
theorem Working.AfterRounds.cons {w w' : Working} {bits : List Bool} {p n bit recorded : Bool} (hi : w.i.toNat < 64)
    (h : (w.afterRound p n bit recorded).AfterRounds bits w') : w.AfterRounds (bit :: bits) w' := by
  obtain ⟨hcount, hpos, hbelow, hstored⟩ := h
  have hnext : (w.afterRound p n bit recorded).i.toNat = w.i.toNat + 1 := Working.i_add_one_toNat hi
  rw [hnext] at hpos hbelow hstored
  have hkept (j : Nat) (hj : j < w.i.toNat + 1) : w'.code.getLsbD j = if j = w.i.toNat then bit else w.code.getLsbD j := by
    rw [hbelow j hj, Working.getLsbD_afterRound_code hi _ _ _ _ (by omega)]
  refine ⟨hcount.trans (Working.afterRound_count ..), ?_, fun j hj => ?_, fun k hk => ?_⟩
  · rw [hpos, List.length_cons]
    omega
  · rw [hkept j (by omega), if_neg (by omega)]
  · cases k with
    | zero => rw [Nat.add_zero, hkept _ (by omega), if_pos rfl, List.getElem_cons_zero]
    | succ k =>
      rw [show w.i.toNat + (k + 1) = w.i.toNat + 1 + k by omega]
      exact hstored k (Nat.lt_of_succ_lt_succ hk)

/-- Rounds whose pairs are not (1,1), against a script that answers all their primitives (R106, R120). -/
theorem runSteps_rounds {rounds : List RoundReplies} {s : State} {rest : List Bool}
    (hu : s.upc = if s.W.i.toNat = 64 then .commit else .rdP) (hp : s.port = none)
    (hi : s.W.i.toNat + rounds.length ≤ 64) (hpairs : ∀ x ∈ rounds, ¬(x.1 = true ∧ x.2.1 = true))
    (hbus : s.bus = .script (scriptOf rounds ++ rest)) :
    ∃ w a,
      runSteps (5 * rounds.length) s = .next
        { s with
          W := w
          bus := .script rest
          ans := a
          trace := s.trace ++ eventsOf rounds (bitsFrom s.S s.W.count s.W.i.toNat rounds)
          upc := if w.i.toNat = 64 then .commit else .rdP } ∧
      s.W.AfterRounds (bitsFrom s.S s.W.count s.W.i.toNat rounds) w := by
  induction rounds generalizing s with
  | nil =>
    refine ⟨s.W, s.ans, ?_, .nil _⟩
    rw [← hu, show BusEnv.script rest = s.bus from hbus.symm]
    simp [eventsOf]
  | cons x rounds ih =>
    simp only [List.length_cons] at hi
    have hlt : s.W.i.toNat < 64 := by omega
    have hpos : (s.W.i + 1).toNat = s.W.i.toNat + 1 := Working.i_add_one_toNat hlt
    have hround := runSteps_round (a := x.2.2) (bus₃ := .script (scriptOf rounds ++ rest)) (by rw [hu, if_neg (by omega)]) hp
      hlt (hpairs x List.mem_cons_self) (by rw [hbus]; rfl) rfl rfl
    obtain ⟨w, a, hrun, hafter⟩ := ih (s := { s with
        W := s.W.afterRound x.1 x.2.1 (resolvedBit s.S s.W.count s.W.i.toNat x.1 x.2.1)
          (recordsFork s.S s.W.count s.W.i.toNat x.1 x.2.1)
        bus := .script (scriptOf rounds ++ rest)
        ans := x.2.1
        trace := s.trace ++ [.rd x.1, .rd x.2.1, .wr (resolvedBit s.S s.W.count s.W.i.toNat x.1 x.2.1)]
        upc := if s.W.i.toNat = 63 then .commit else .rdP })
      (by simp only [Working.afterRound_i, hpos, Nat.reduceEqDiff]) hp (by simp only [Working.afterRound_i, hpos]; omega)
      (fun y hy => hpairs y (List.mem_cons_of_mem _ hy)) rfl
    simp only [Working.afterRound_i, Working.afterRound_count, hpos] at hrun hafter
    refine ⟨w, a, ?_, ?_⟩
    · rw [List.length_cons, Nat.mul_succ, Nat.add_comm, runSteps_add hround, hrun, bitsFrom_cons, eventsOf_cons,
        List.append_assoc]
    · rw [bitsFrom_cons]
      exact .cons hlt hafter

/-- Settles O57: the reset and the command, and then the rounds (R103, R105, R106). -/
theorem transactionIssuesTheListedEvents : Obligations.TransactionIssuesTheListedEvents := by
  intro rounds s a rest hlen hpairs hu hp hbus
  have hbegin := runSteps_transaction_begin (a := a) (bus'' := .script (scriptOf rounds ++ rest)) hu hp
    (by rw [hbus]; rfl) rfl
  obtain ⟨w, ans, hrun, hcount, hi, -, hstored⟩ :=
    runSteps_rounds (rounds := rounds) (rest := rest) (s := { s with
        W := { s.W with i := 0, code := 0, lfValid := false }
        bus := .script (scriptOf rounds ++ rest)
        ans := true
        trace := s.trace ++ [.rst true, .cmd s.S.command]
        upc := .rdP }) rfl hp (by simpa using hlen) hpairs rfl
  have hbits : bitsFrom s.S s.W.count (0 : BitVec 7).toNat rounds =
      rounds.mapIdx (fun i x => resolvedBit s.S s.W.count i x.1 x.2.1) := by simp [bitsFrom]
  simp only [hbits] at hrun hi hstored
  have hpos : w.i.toNat = rounds.length := by simpa using hi
  refine ⟨_, _, (runSteps_add hbegin _).trans hrun, rfl, rfl, fun i h => ?_, hpos, ?_, rfl, rfl, hcount, rfl⟩
  · simpa using hstored i h
  · simp only [hpos]

end Sys2Proof.Machine
end

section
/-! The search of a fixed device set (R61, R117, R118), first without the machine: what a round's pair tells of the devices that agree
with the code assembled so far, and what a search has found after some rounds. -/

namespace Sys2Proof.Machine

/-! ### Agreement below a position -/

theorem agreeBelow.symm {j : Nat} {a b : RomCode} (h : agreeBelow j a b) : agreeBelow j b a := fun k hk => (h k hk).symm

theorem agreeBelow.trans {j : Nat} {a b c : RomCode} (h : agreeBelow j a b) (h' : agreeBelow j b c) : agreeBelow j a c :=
  fun k hk => (h k hk).trans (h' k hk)

theorem agreeBelow.mono {j k : Nat} {a b : RomCode} (h : agreeBelow k a b) (hjk : j ≤ k) : agreeBelow j a b :=
  fun l hl => h l (Nat.lt_of_lt_of_le hl hjk)

theorem agreeBelow_zero (a b : RomCode) : agreeBelow 0 a b := fun _ h => nomatch h

theorem agreeBelow_succ_iff {j : Nat} {a b : RomCode} :
    agreeBelow (j + 1) a b ↔ agreeBelow j a b ∧ a.getLsbD j = b.getLsbD j := by
  refine ⟨fun h => ⟨h.mono (Nat.le_succ j), h j (Nat.lt_succ_self j)⟩, fun ⟨h, hj⟩ k hk => ?_⟩
  rcases Nat.lt_succ_iff_lt_or_eq.mp hk with hk | rfl
  · exact h k hk
  · exact hj

/-- Codes that agree on all 64 bits are equal. -/
theorem eq_of_agreeBelow {a b : RomCode} (h : agreeBelow 64 a b) : a = b := BitVec.eq_of_getLsbD_eq h

/-- The order as far as the bits below `i` decide it. -/
def bitLexLtBelow (i : Nat) (a b : RomCode) : Prop :=
  ∃ j, j < i ∧ agreeBelow j a b ∧ a.getLsbD j = false ∧ b.getLsbD j = true

theorem bitLexLtBelow_all_iff {a b : RomCode} : bitLexLtBelow 64 a b ↔ bitLexLt a b := Iff.rfl

/-- The bits below `i` decide as before when more bits are looked at, and when the others change. -/
theorem bitLexLtBelow.of_agreeBelow {i k : Nat} {a a' b : RomCode} (h : bitLexLtBelow i a b) (hik : i ≤ k)
    (ha : agreeBelow i a' a) : bitLexLtBelow k a' b := by
  obtain ⟨j, hj, hab, hzero, hone⟩ := h
  exact ⟨j, by omega, (ha.mono (by omega)).trans hab, (ha j hj).trans hzero, hone⟩

/-- A device after `c` in the order gives an open fork of `c`. -/
theorem exists_openFork_of_bitLexLt {D : List RomCode} {c d : RomCode} (hd : d ∈ D) (h : bitLexLt c d) : ∃ j, openFork D c j := by
  obtain ⟨j, -, hagree, hzero, hone⟩ := h
  exact ⟨j, d, hd, hagree.symm, hone, hzero⟩

theorem openFork_lt {D : List RomCode} {c : RomCode} {j : Nat} (h : openFork D c j) : j < 64 := by
  obtain ⟨d, -, -, hone, -⟩ := h
  by_contra hj
  rw [BitVec.getLsbD_of_ge d j (by omega)] at hone
  cases hone

/-- Whether `j` is an open fork is a matter of the bits up to `j`. -/
theorem openFork_of_agreeBelow {D : List RomCode} {c c' : RomCode} {i j : Nat} (h : openFork D c j) (hj : j < i)
    (hc : agreeBelow i c' c) : openFork D c' j := by
  obtain ⟨d, hd, hagree, hone, hzero⟩ := h
  exact ⟨d, hd, hagree.trans (hc.mono (by omega)).symm, hone, (hc j hj).trans hzero⟩

/-! ### One round -/

/-- The code after a round at position `i` that stored `bit`, as far as the round has come. -/
structure Extends (i : Nat) (bit : Bool) (code code' : RomCode) : Prop where
  below : agreeBelow i code' code
  bit : code'.getLsbD i = bit

/-- The pair that the devices agreeing with `code` below `i` bring about at `i` by the wired AND: each line is low exactly when some
device pulls it low (R55, R59). -/
structure PairOf (D : List RomCode) (i : Nat) (code : RomCode) (p n : Bool) : Prop where
  first : p = false ↔ ∃ d ∈ D, agreeBelow i d code ∧ d.getLsbD i = false
  second : n = false ↔ ∃ d ∈ D, agreeBelow i d code ∧ d.getLsbD i = true

section
variable {D : List RomCode} {i : Nat} {code code' : RomCode} {p n bit : Bool} (hpair : PairOf D i code p n)
include hpair

/-- As long as a device answers, the pair is not (1,1). -/
theorem PairOf.not_both_high (halive : ∃ d ∈ D, agreeBelow i d code) : ¬(p = true ∧ n = true) := by
  rintro ⟨rfl, rfl⟩
  obtain ⟨d, hd, hagree⟩ := halive
  cases hbit : d.getLsbD i with
  | false => exact absurd (hpair.first.mpr ⟨d, hd, hagree, hbit⟩) (by decide)
  | true => exact absurd (hpair.second.mpr ⟨d, hd, hagree, hbit⟩) (by decide)

variable (hbit : ¬(p = false ∧ n = false) → bit = p)
include hbit

/-- Some device sent the bit that the round resolved to. -/
theorem PairOf.exists_sender (halive : ∃ d ∈ D, agreeBelow i d code) :
    ∃ d ∈ D, agreeBelow i d code ∧ d.getLsbD i = bit := by
  have hnot := hpair.not_both_high halive
  cases hb : bit with
  | false => exact hpair.first.mp (by cases p <;> cases n <;> simp_all)
  | true => exact hpair.second.mp (by cases p <;> cases n <;> simp_all)

/-- The position becomes an open fork exactly when a fork was resolved to 0 (R118, R126 to R128). -/
theorem PairOf.openFork_iff (hext : Extends i bit code code') : openFork D code' i ↔ p = false ∧ n = false ∧ bit = false := by
  constructor
  · rintro ⟨d, hd, hagree, hone, hzero⟩
    have hb : bit = false := hext.bit.symm.trans hzero
    have hn : n = false := hpair.second.mpr ⟨d, hd, hagree.trans hext.below, hone⟩
    refine ⟨?_, hn, hb⟩
    by_contra hp
    exact hp ((hbit fun h => hp h.1).symm.trans hb)
  · rintro ⟨-, hn, rfl⟩
    obtain ⟨d, hd, hagree, hone⟩ := hpair.second.mp hn
    exact ⟨d, hd, hagree.trans hext.below.symm, hone, hext.bit⟩

/-- A device that answered the round still agrees with the code, or comes after it, unless a fork was resolved to 1. -/
theorem PairOf.agrees_or_later (hext : Extends i bit code code') (hzero : p = false → n = false → bit = false) {d : RomCode}
    (hd : d ∈ D) (hagree : agreeBelow i d code) : agreeBelow (i + 1) d code' ∨ bitLexLtBelow (i + 1) code' d := by
  have hagree' : agreeBelow i d code' := hagree.trans hext.below.symm
  cases hsent : d.getLsbD i with
  | false =>
    have hp : p = false := hpair.first.mpr ⟨d, hd, hagree, hsent⟩
    have hb : bit = false := by
      cases n with
      | false => exact hzero hp rfl
      | true => exact (hbit (by simp)).trans hp
    exact .inl (agreeBelow_succ_iff.mpr ⟨hagree', hsent.trans (hext.bit.trans hb).symm⟩)
  | true =>
    cases bit with
    | false => exact .inr ⟨i, Nat.lt_succ_self i, hagree'.symm, hext.bit, hsent⟩
    | true => exact .inl (agreeBelow_succ_iff.mpr ⟨hagree', hsent.trans hext.bit.symm⟩)

/-- Where a guide tells forks the bit of a device that answers, the round resolves to that bit. -/
theorem PairOf.eq_guide {guide : Bool} (hfork : p = false → n = false → bit = guide)
    (halive : ∃ d ∈ D, agreeBelow i d code ∧ d.getLsbD i = guide) : bit = guide := by
  obtain ⟨d, hd, hagree, rfl⟩ := halive
  cases hsent : d.getLsbD i with
  | false =>
    have hp : p = false := hpair.first.mpr ⟨d, hd, hagree, hsent⟩
    cases n with
    | false => exact (hfork hp rfl).trans hsent
    | true => exact (hbit (by simp)).trans hp
  | true =>
    have hn : n = false := hpair.second.mpr ⟨d, hd, hagree, hsent⟩
    cases p with
    | false => exact (hfork rfl hn).trans hsent
    | true => exact hbit (by simp)

end

/-! ### What a search has found -/

/-- The fork record names the highest open fork below `i`, or none when there is none (R118). -/
structure RecordOf (D : List RomCode) (i : Nat) (code : RomCode) (last : Option (BitVec 6)) : Prop where
  sound : ∀ f, last = some f → f.toNat < i ∧ openFork D code f.toNat
  latest : ∀ j, j < i → openFork D code j → ∃ f, last = some f ∧ j ≤ f.toNat

theorem RecordOf.next {D : List RomCode} {i : Nat} {code code' : RomCode} {last : Option (BitVec 6)} {bit recorded : Bool}
    {index : BitVec 6} (h : RecordOf D i code last) (hext : Extends i bit code code') (hindex : index.toNat = i)
    (hrec : recorded = true ↔ openFork D code' i) :
    RecordOf D (i + 1) code' (if recorded then some index else last) := by
  have hbelow {j : Nat} (hj : j < i) : openFork D code' j ↔ openFork D code j :=
    ⟨fun ho => openFork_of_agreeBelow ho hj hext.below.symm, fun ho => openFork_of_agreeBelow ho hj hext.below⟩
  cases recorded with
  | true =>
    refine ⟨fun f hf => ?_, fun j hj _ => ⟨index, rfl, by omega⟩⟩
    cases hf
    rw [hindex]
    exact ⟨Nat.lt_succ_self i, hrec.mp rfl⟩
  | false =>
    refine ⟨fun f hf => ?_, fun j hj ho => ?_⟩
    · obtain ⟨hlt, ho⟩ := h.sound f hf
      exact ⟨by omega, (hbelow hlt).mpr ho⟩
    · have hji : j < i := by
        rcases Nat.lt_succ_iff_lt_or_eq.mp hj with hj | rfl
        · exact hj
        · exact absurd (hrec.mpr ho) (by decide)
      exact h.latest j hji ((hbelow hji).mp ho)

/-- What a search that forks are told to follow `guide` on below `m`, and 0 from `m` on, has found after `i` rounds. -/
structure Found (D : List RomCode) (guide : RomCode) (m i : Nat) (code : RomCode) (last : Option (BitVec 6)) : Prop where
  /-- Some device still agrees with the code. -/
  alive : ∃ d ∈ D, agreeBelow i d code
  record : RecordOf D i code last
  guided : ∀ k, k < i → k < m → code.getLsbD k = guide.getLsbD k
  /-- Of the devices that agree with the guide, those that dropped out come after the code. -/
  least : ∀ d ∈ D, agreeBelow m d guide → agreeBelow i d code ∨ bitLexLtBelow i code d

theorem Found.start {D : List RomCode} {guide : RomCode} {m : Nat} (hguide : ∃ d ∈ D, agreeBelow m d guide) (code : RomCode) :
    Found D guide m 0 code none where
  alive := by
    obtain ⟨d, hd, -⟩ := hguide
    exact ⟨d, hd, agreeBelow_zero d code⟩
  record := ⟨fun _ h => (nomatch h), fun _ h => (nomatch h)⟩
  guided := fun _ h => nomatch h
  least := fun d _ _ => .inl (agreeBelow_zero d code)

/-- A device that agrees with the guide agrees with the code as far as the guide leads. -/
theorem Found.agrees_of_guided {D : List RomCode} {guide : RomCode} {m i : Nat} {code d : RomCode} {last : Option (BitVec 6)}
    (h : Found D guide m i code last) (hi : i ≤ m) (hd : agreeBelow m d guide) : agreeBelow i d code :=
  fun k hk => (hd k (by omega)).trans (h.guided k hk (by omega)).symm

section
variable {D : List RomCode} {guide : RomCode} {m i : Nat} {code code' : RomCode} {last : Option (BitVec 6)}
  {p n bit recorded : Bool} {index : BitVec 6} (h : Found D guide m i code last) (hguide : ∃ d ∈ D, agreeBelow m d guide)
  (hpair : PairOf D i code p n) (hagreed : ¬(p = false ∧ n = false) → bit = p)
  (hfork : p = false → n = false → bit = if i < m then guide.getLsbD i else false)
include h hguide hpair hagreed hfork

/-- Below `m` every round, fork or not, resolves to the guide's bit, because a device that agrees with the guide still answers. -/
theorem Found.bit_eq_guide (him : i < m) : bit = guide.getLsbD i := by
  obtain ⟨d, hd, hdg⟩ := hguide
  rw [if_pos him] at hfork
  exact hpair.eq_guide hagreed hfork ⟨d, hd, h.agrees_of_guided (Nat.le_of_lt him) hdg, hdg i him⟩

theorem Found.next (hrec : recorded = true ↔ p = false ∧ n = false ∧ bit = false) (hindex : index.toNat = i)
    (hext : Extends i bit code code') : Found D guide m (i + 1) code' (if recorded then some index else last) where
  alive := by
    obtain ⟨d, hd, hagree, hsent⟩ := hpair.exists_sender hagreed h.alive
    exact ⟨d, hd, agreeBelow_succ_iff.mpr ⟨hagree.trans hext.below.symm, hsent.trans hext.bit.symm⟩⟩
  record := h.record.next hext hindex (hrec.trans (hpair.openFork_iff hagreed hext).symm)
  guided := by
    intro k hk hkm
    rcases Nat.lt_succ_iff_lt_or_eq.mp hk with hk | rfl
    · exact (hext.below k hk).trans (h.guided k hk hkm)
    · exact hext.bit.trans (h.bit_eq_guide hguide hpair hagreed hfork hkm)
  least := by
    intro d hd hdg
    by_cases him : i < m
    · have hsent : d.getLsbD i = code'.getLsbD i :=
        (hdg i him).trans ((h.bit_eq_guide hguide hpair hagreed hfork him).symm.trans hext.bit.symm)
      have hagree : agreeBelow i d code := h.agrees_of_guided (Nat.le_of_lt him) hdg
      exact .inl (agreeBelow_succ_iff.mpr ⟨hagree.trans hext.below.symm, hsent⟩)
    · rw [if_neg him] at hfork
      rcases h.least d hd hdg with hagree | hlater
      · exact hpair.agrees_or_later hagreed hext hfork hd hagree
      · exact .inr (hlater.of_agreeBelow (Nat.le_succ i) hext.below)

end

/-! ### What a whole search has found -/

section
variable {D : List RomCode} {guide : RomCode} {m : Nat} {code : RomCode} {last : Option (BitVec 6)}
  (h : Found D guide m 64 code last)
include h

theorem Found.code_mem : code ∈ D := by
  obtain ⟨d, hd, hagree⟩ := h.alive
  rwa [← eq_of_agreeBelow hagree]

theorem Found.eq_or_later {d : RomCode} (hd : d ∈ D) (hdg : agreeBelow m d guide) : d = code ∨ bitLexLt code d :=
  (h.least d hd hdg).imp eq_of_agreeBelow bitLexLtBelow_all_iff.mp

theorem Found.lastOpenFork_of_some {f : BitVec 6} (hf : last = some f) : lastOpenFork D code f.toNat := by
  refine ⟨(h.record.sound f hf).2, fun j hj ho => ?_⟩
  obtain ⟨g, hg, hle⟩ := h.record.latest j (openFork_lt ho) ho
  cases hf.symm.trans hg
  omega

/-- Without a fork record no device comes after the code. -/
theorem Found.not_later_of_none (hnone : last = none) {d : RomCode} (hd : d ∈ D) : ¬ bitLexLt code d := by
  intro hlt
  obtain ⟨j, ho⟩ := exists_openFork_of_bitLexLt hd hlt
  obtain ⟨f, hf, -⟩ := h.record.latest j (openFork_lt ho) ho
  cases hnone.symm.trans hf

end

end Sys2Proof.Machine
end

section
/-! The search on the machine: the reference environment brings about the pairs of `PairOf` (R57 to R60), so 64 rounds come to what
`Found` says, and the statements on the first and the next transaction (R118). -/

namespace Sys2Proof.Machine

/-! ### The reference environment in a transaction -/

/-- The environment between two rounds, the bits of `code` below `i` written back: the devices that agree with them are selected. -/
structure RefBus.Follows (b : RefBus) (D : List RomCode) (i : Nat) (code : RomCode) : Prop where
  codes : b.codes = D
  pos : b.pos = i
  half : b.half = false
  selected : ∀ d ∈ b.devices, d.selected = true ↔ agreeBelow i d.code code

/-- After the first read of a round the devices send the complement (R55). -/
def RefBus.complemented (b : RefBus) : RefBus := { b with half := true }

/-- The line is low exactly when some selected device sends a 0. -/
theorem RefBus.line_eq_false_iff (b : RefBus) :
    b.line = false ↔ ∃ d ∈ b.devices, d.selected = true ∧ d.code.getLsbD b.pos = b.half := by
  simp [RefBus.line, RefDevice.bitAt]

/-- The two reads of a round (R59). -/
theorem RefBus.Follows.pairOf {b : RefBus} {D : List RomCode} {i : Nat} {code : RomCode} (h : b.Follows D i code) :
    PairOf D i code b.line b.complemented.line := by
  obtain ⟨rfl, rfl, hhalf, hsel⟩ := h
  have hsent (v : Bool) : (∃ d ∈ b.devices, d.selected = true ∧ d.code.getLsbD b.pos = v) ↔
      ∃ c ∈ b.codes, agreeBelow b.pos c code ∧ c.getLsbD b.pos = v := by
    simp only [RefBus.codes, List.mem_map, exists_exists_and_eq_and]
    exact exists_congr fun d => and_congr_right fun hd => and_congr_left' (hsel d hd)
  exact ⟨by rw [RefBus.line_eq_false_iff, hhalf, hsent], (RefBus.line_eq_false_iff _).trans (hsent true)⟩

theorem RefBus.issue_readBit {b : RefBus} (hpos : b.pos < 64) :
    (BusEnv.reference b).issue .readBit = some (b.line, .reference b.complemented) := by
  simp [RefBus.answer, RefBus.after, hpos, RefBus.complemented]

/-- The write-back keeps the devices that agree with the bit, at the next position (R60). -/
theorem RefBus.Follows.writeBit {b : RefBus} {D : List RomCode} {i : Nat} {code code' : RomCode} {bit : Bool}
    (h : b.Follows D i code) (hi : i < 64) (hext : Extends i bit code code') :
    (b.complemented.after (.writeBit bit)).Follows D (i + 1) code' := by
  obtain ⟨rfl, rfl, -, hsel⟩ := h
  have hpos : b.complemented.pos < 64 := hi
  refine ⟨?_, ?_, ?_, ?_⟩ <;> simp only [RefBus.after, if_pos hpos]
  · simp [RefBus.codes, RefBus.complemented]
  · rfl
  · intro d' hd'
    obtain ⟨d, hd, rfl⟩ := List.mem_map.mp hd'
    have hagree : agreeBelow b.pos d.code code' ↔ agreeBelow b.pos d.code code :=
      ⟨fun h => h.trans hext.below, fun h => h.trans hext.below.symm⟩
    simp only [agreeBelow_succ_iff, hagree, hext.bit, ← hsel d hd, Bool.and_eq_true, beq_iff_eq]
    rfl

/-- The reset selects every device, and a command that all take part in deselects none (R57, R58). -/
theorem RefBus.follows_begin {b : RefBus} {c : Byte} (h : b.allParticipate c) (code : RomCode) :
    ((b.after .reset).after (.writeCommand c)).Follows b.codes 0 code := by
  refine ⟨by simp [RefBus.codes, RefBus.after], rfl, rfl, fun d' hd' => ?_⟩
  simp only [RefBus.after, List.map_map, List.mem_map] at hd'
  obtain ⟨d, hd, rfl⟩ := hd'
  have hpart : c ∉ d.ignores := by simpa [RefDevice.participates] using h d hd
  simp [RefDevice.participates, hpart, agreeBelow_zero]

/-! ### The rounds -/

/-- What `resolvedBit` says of a fork, the guide's bit below `m` and 0 from `m` on. -/
def GuidedBy (S : SearchState) (count : BitVec 16) (guide : RomCode) (m : Nat) : Prop :=
  ∀ i, i < 64 → resolvedBit S count i false false = if i < m then guide.getLsbD i else false

/-- The machine before round `i` of a transaction on the reference environment, or at the commit after round 63. -/
structure SearchAt (D : List RomCode) (guide : RomCode) (m : Nat) (S : SearchState) (count : BitVec 16) (i : Nat) (s : State) :
    Prop where
  upc : s.upc = if i = 64 then .commit else .rdP
  port : s.port = none
  S : s.S = S
  count : s.W.count = count
  pos : s.W.i.toNat = i
  bus : ∃ b, s.bus = .reference b ∧ b.Follows D i s.W.code
  found : Found D guide m i s.W.code s.W.lastFork

theorem recordsFork_iff (S : SearchState) (count : BitVec 16) (i : Nat) (p n : Bool) :
    recordsFork S count i p n = true ↔ p = false ∧ n = false ∧ resolvedBit S count i p n = false := by
  simp [recordsFork, and_assoc]

/-- The store extends the code by the round's bit (R130). -/
theorem Working.extends_afterRound {w : Working} (hi : w.i.toNat < 64) (p n bit recorded : Bool) :
    Extends w.i.toNat bit w.code (w.afterRound p n bit recorded).code where
  below := fun k hk => by rw [Working.getLsbD_afterRound_code hi _ _ _ _ (by omega), if_neg (by omega)]
  bit := by rw [Working.getLsbD_afterRound_code hi _ _ _ _ hi, if_pos rfl]

theorem SearchAt.round {D : List RomCode} {guide : RomCode} {m : Nat} {S : SearchState} {count : BitVec 16} {i : Nat} {s : State}
    (h : SearchAt D guide m S count i s) (hguide : ∃ d ∈ D, agreeBelow m d guide) (hfork : GuidedBy S count guide m)
    (hi : i < 64) : ∃ t, runSteps 5 s = .next t ∧ SearchAt D guide m S count (i + 1) t := by
  obtain ⟨hu, hport, rfl, rfl, rfl, ⟨b, hbus, hfollows⟩, hfound⟩ := h
  have hpos : b.pos < 64 := hfollows.pos ▸ hi
  have hpair := hfollows.pairOf
  have hround := runSteps_round (by rw [hu, if_neg (by omega)]) hport hi (hpair.not_both_high hfound.alive)
    (by rw [hbus, RefBus.issue_readBit hpos]) (RefBus.issue_readBit (b := b.complemented) hpos) (BusEnv.issue_reference _ _)
  have hext := Working.extends_afterRound hi b.line b.complemented.line
    (resolvedBit s.S s.W.count s.W.i.toNat b.line b.complemented.line)
    (recordsFork s.S s.W.count s.W.i.toNat b.line b.complemented.line)
  refine ⟨_, hround, by simp, hport, rfl, Working.afterRound_count .., Working.i_add_one_toNat hi,
    ⟨_, rfl, hfollows.writeBit hi hext⟩, ?_⟩
  rw [Working.lastFork_afterRound]
  refine hfound.next hguide hpair resolvedBit_of_agreed (fun hp hn => ?_) (recordsFork_iff ..) (Working.index_toNat hi) hext
  rw [hp, hn, hfork _ hi]

theorem SearchAt.rounds {D : List RomCode} {guide : RomCode} {m : Nat} {S : SearchState} {count : BitVec 16} {i : Nat} {s : State}
    (h : SearchAt D guide m S count i s) (hguide : ∃ d ∈ D, agreeBelow m d guide) (hfork : GuidedBy S count guide m)
    {k : Nat} (hk : i + k ≤ 64) : ∃ t, runSteps (5 * k) s = .next t ∧ SearchAt D guide m S count (i + k) t := by
  induction k generalizing i s with
  | zero => exact ⟨s, rfl, h⟩
  | succ k ih =>
    obtain ⟨s', hs', h'⟩ := h.round hguide hfork (by omega)
    obtain ⟨t, ht, h''⟩ := ih h' (by omega)
    refine ⟨t, ?_, by rwa [show i + (k + 1) = i + 1 + k by omega]⟩
    rw [Nat.mul_succ, Nat.add_comm, runSteps_add hs', ht]

/-- The reset and the command bring the machine to the first round (R103, R105). -/
theorem searchAt_begin {s : State} {b : RefBus} {guide : RomCode} {m : Nat} (hu : s.upc = .txReset) (hp : s.port = none)
    (hbus : s.bus = .reference b) (hpart : b.allParticipate s.S.command) (hguide : ∃ d ∈ b.codes, agreeBelow m d guide) :
    ∃ t, runSteps 2 s = .next t ∧ SearchAt b.codes guide m s.S s.W.count 0 t := by
  have hpresent : b.answer .reset = true := by
    obtain ⟨d, hd, -⟩ := hguide
    obtain ⟨d', hd', -⟩ := List.mem_map.mp hd
    simpa [RefBus.answer] using List.ne_nil_of_mem hd'
  exact ⟨_, runSteps_transaction_begin hu hp (by rw [hbus, BusEnv.issue_reference, hpresent]) (BusEnv.issue_reference _ _),
    rfl, hp, rfl, rfl, rfl, ⟨_, rfl, RefBus.follows_begin hpart _⟩, Found.start hguide _⟩

/-- A transaction on a device set that takes part: two steps to the first round and five a round (R106). -/
theorem runSteps_search {s : State} {b : RefBus} {guide : RomCode} {m : Nat} (hu : s.upc = .txReset) (hp : s.port = none)
    (hbus : s.bus = .reference b) (hpart : b.allParticipate s.S.command) (hguide : ∃ d ∈ b.codes, agreeBelow m d guide)
    (hfork : GuidedBy s.S s.W.count guide m) :
    ∃ t b', runSteps 322 s = .next t ∧ t.upc = .commit ∧ t.bus = .reference b' ∧ b'.codes = b.codes ∧
      Found b.codes guide m 64 t.W.code t.W.lastFork := by
  obtain ⟨s', hbegin, hstart⟩ := searchAt_begin hu hp hbus hpart hguide
  obtain ⟨t, ht, hend⟩ := hstart.rounds hguide hfork (k := 64) (by decide)
  obtain ⟨b', hb', hfollows⟩ := hend.bus
  exact ⟨t, b', (runSteps_add hbegin _).trans ht, hend.upc, hb', hfollows.codes, hend.found⟩

/-! ### The first transaction -/

theorem Working.lastFork_eq_none {w : Working} (h : w.lfValid = false) : w.lastFork = none := by simp [Working.lastFork, h]

theorem Working.lastFork_eq_some {w : Working} (h : w.lfValid = true) : w.lastFork = some w.lfPos := by
  simp [Working.lastFork, h]

/-- Before any fork is saved every fork resolves to 0 (R132). -/
theorem guidedBy_of_sentinel {S : SearchState} (hcode : S.previousCode = 0) (hpos : S.previousForkPosition = 64)
    (count : BitVec 16) (guide : RomCode) : GuidedBy S count guide 0 := by
  intro i hi
  have hne : ¬ i = S.previousForkPosition.val := by
    rw [hpos]
    exact Nat.ne_of_lt hi
  rw [resolvedBit, if_pos ⟨rfl, rfl⟩, if_neg hne, hcode]
  simp

/-- Settles O59: the guide leads nowhere, so every device agrees with it, and the code is the least of them all. -/
theorem firstTransactionFindsTheLeastDevice : Obligations.FirstTransactionFindsTheLeastDevice := by
  intro s b hu hp hbus hne hpart hcode hpos
  obtain ⟨d, hd⟩ := List.exists_mem_of_ne_nil _ hne
  obtain ⟨t, b', ht, htu, htb, hcodes, hfound⟩ := runSteps_search (guide := 0) (m := 0) hu hp hbus hpart
    ⟨d.code, List.mem_map_of_mem hd, agreeBelow_zero _ _⟩ (guidedBy_of_sentinel hcode hpos _ _)
  exact ⟨t, b', ht, htu, htb, hcodes, hfound.code_mem, fun d hd => hfound.eq_or_later hd (agreeBelow_zero _ _),
    fun h => hfound.lastOpenFork_of_some (Working.lastFork_eq_some h),
    fun h d hd => hfound.not_later_of_none (Working.lastFork_eq_none h) hd⟩

/-! ### The next transaction -/

/-- The guide of a transaction that may replay: the previous code below its fork position, and 1 there (R126, R127). -/
def SearchState.nextGuide (S : SearchState) : RomCode := S.previousCode ||| BitVec.twoPow 64 S.previousForkPosition.val

theorem SearchState.getLsbD_nextGuide {S : SearchState} {j : Nat} (hj : j < 64) :
    S.nextGuide.getLsbD j = if j = S.previousForkPosition.val then true else S.previousCode.getLsbD j := by
  rw [SearchState.nextGuide, BitVec.getLsbD_or, BitVec.getLsbD_twoPow]
  by_cases h : j = S.previousForkPosition.val
  · simp [← h, hj]
  · simp [h, Ne.symm h]

theorem guidedBy_nextGuide {S : SearchState} {count : BitVec 16}
    (hreplay : 0 < count.toNat ∨ S.isFirstTransaction = false) :
    GuidedBy S count S.nextGuide (S.previousForkPosition.val + 1) := by
  intro i hi
  rw [resolvedBit, if_pos ⟨rfl, rfl⟩, SearchState.getLsbD_nextGuide hi]
  rcases Nat.lt_trichotomy i S.previousForkPosition.val with hlt | heq | hgt
  · rw [if_pos ⟨hreplay, hlt⟩, if_pos (by omega), if_neg (by omega)]
  · rw [if_neg (by omega), if_pos heq, if_pos (by omega), if_pos heq]
  · rw [if_neg (by omega), if_neg (by omega), if_neg (by omega)]

/-- The devices that agree with the guide are those that leave the previous code at its fork position for the 1. -/
theorem SearchState.agreeBelow_nextGuide_iff {S : SearchState} (hpos : S.previousForkPosition.val < 64) {d : RomCode} :
    agreeBelow (S.previousForkPosition.val + 1) d S.nextGuide ↔
      agreeBelow S.previousForkPosition.val d S.previousCode ∧ d.getLsbD S.previousForkPosition.val = true := by
  rw [agreeBelow_succ_iff, SearchState.getLsbD_nextGuide hpos, if_pos rfl]
  refine and_congr_left' (forall₂_congr fun k hk => ?_)
  rw [SearchState.getLsbD_nextGuide (by omega), if_neg (by omega)]

/-- Settles O60: the guide is the previous code up to its highest open fork, and 1 there; every later device agrees with it, or leaves
the previous code at a lower fork and comes after the code found. -/
theorem nextTransactionFindsTheSuccessor : Obligations.NextTransactionFindsTheSuccessor := by
  intro s b hu hp hbus hpart hreplay hmem hpos hlast
  obtain ⟨⟨d₀, hd₀, hagree₀, hone₀, hzero⟩, hhighest⟩ := hlast
  obtain ⟨t, b', ht, htu, htb, hcodes, hfound⟩ := runSteps_search hu hp hbus hpart
    ⟨d₀, hd₀, (SearchState.agreeBelow_nextGuide_iff hpos).mpr ⟨hagree₀, hone₀⟩⟩ (guidedBy_nextGuide hreplay)
  obtain ⟨hagree, hone⟩ := (SearchState.agreeBelow_nextGuide_iff hpos).mp fun k hk => hfound.guided k (by omega) hk
  refine ⟨t, b', ht, htu, htb, hcodes, hfound.code_mem, ⟨_, hpos, hagree.symm, hzero, hone⟩, fun d hd hlater => ?_,
    fun h => hfound.lastOpenFork_of_some (Working.lastFork_eq_some h),
    fun h d hd => hfound.not_later_of_none (Working.lastFork_eq_none h) hd⟩
  obtain ⟨j, hj, hdagree, hjzero, hjone⟩ := hlater
  rcases Nat.lt_trichotomy j s.S.previousForkPosition.val with hlt | rfl | hgt
  · exact .inr ⟨j, hj, (hagree.mono (Nat.le_of_lt hlt)).trans hdagree, (hagree j hlt).trans hjzero, hjone⟩
  · exact hfound.eq_or_later hd ((SearchState.agreeBelow_nextGuide_iff hpos).mpr ⟨hdagree.symm, hjone⟩)
  · exact absurd ⟨d, hd, hdagree.symm, hjone, hjzero⟩ (hhighest j hgt)

end Sys2Proof.Machine
end

section
/-! Equations of the micro-operations that the statements on every step need besides those on a round that returns: a pair read of which
one read has returned, an advance at any position, an emission beyond the capacity. -/

namespace Sys2Proof.Machine

/-- The second read has not returned: the first answer stands, and the engine waits at RD_N (R121, R62). -/
theorem exec_readPair_of_stuck_second {s : State} {p : Bool} {bus₁ : BusEnv} (hu : s.upc ≠ .rdN)
    (hfirst : s.bus.issue .readBit = some (p, bus₁)) (hsecond : bus₁.issue .readBit = none) :
    exec .readPair s = .next
      { s with W := { s.W with p := p }, bus := bus₁, ans := p, trace := s.trace ++ [.rd p], upc := .rdN } := by
  rw [exec, execReadPair, readPairOp, if_neg hu, issue_of_returns hfirst]
  dsimp only
  rw [readSecond, issue_of_stuck (by simpa using hsecond)]
  rfl

/-- At RD_N the pair read makes the second read alone (log entry 16). -/
theorem exec_readPair_at_rdN {s : State} {n : Bool} {bus₁ : BusEnv} (hu : s.upc = .rdN)
    (h : s.bus.issue .readBit = some (n, bus₁)) :
    exec .readPair s = .next
      { s with W := { s.W with n := n }, bus := bus₁, ans := n, trace := s.trace ++ [.rd n], upc := .resolve } := by
  rw [exec, execReadPair, readPairOp, if_pos hu, readSecond, issue_of_returns h]
  rfl

/-- Whatever returns, the pair read writes `W.p` and `W.n` alone of the two banks, and stays at one of its two reads or goes on to the
resolution (R121, R62). -/
theorem exec_readPair_eq_next {s t : State} (h : exec .readPair s = .next t) :
    ∃ p n a bus' events u,
      t = { s with W := { s.W with p := p, n := n }, ans := a, bus := bus', trace := s.trace ++ events, upc := u } ∧
      (u = .rdP ∨ u = .rdN ∨ u = .resolve) := by
  cases h₁ : s.bus.issue .readBit with
  | none =>
    by_cases hu : s.upc = .rdN
    · rw [exec, execReadPair, readPairOp_of_stuck_at_rdN hu h₁] at h
      cases h
      exact ⟨_, _, _, _, [], _, by rw [List.append_nil]; rfl, .inr (.inl rfl)⟩
    · rw [exec, execReadPair, readPairOp, if_neg hu, issue_of_stuck h₁] at h
      cases h
      exact ⟨_, _, _, _, [], _, by rw [List.append_nil]; rfl, .inl rfl⟩
  | some r =>
    by_cases hu : s.upc = .rdN
    · rw [exec_readPair_at_rdN hu h₁] at h
      cases h
      exact ⟨_, _, _, _, _, _, rfl, .inr (.inr rfl)⟩
    · cases h₂ : r.2.issue .readBit with
      | none =>
        rw [exec_readPair_of_stuck_second hu h₁ h₂] at h
        cases h
        exact ⟨_, _, _, _, _, _, rfl, .inr (.inl rfl)⟩
      | some r' =>
        rw [exec_readPair_of_returns hu h₁ h₂] at h
        cases h
        exact ⟨_, _, _, _, _, _, rfl, .inr (.inr rfl)⟩

theorem exec_advance (s : State) :
    exec .advance s = .next
      { s with W := { s.W with i := s.W.i + 1 }, upc := if s.W.i + 1 = 64 then .commit else .rdP } := rfl

theorem exec_emit_of_full {s : State} (h : ¬ s.W.count < s.capacity) :
    exec .emit s = .fault (.outEntryAbsent s.W.count) := by
  rw [exec, execEmit, writeOut, if_neg h]

/-! ### The fetch and the step, source by source (log entry 7) -/

theorem fetch_of_uop {s : State} {i : Instr} (hp : s.port = none) (hu : s.upc.uop = some i) : fetch s = .instr i s := by
  simp [fetch, hp, hu]

theorem fetch_of_program {s : State} {a : HostAction} {rest : List HostAction} (hp : s.port = none) (hu : s.upc = .idle)
    (hq : s.program = a :: rest) : fetch s = accept a { s with program := rest } := by
  simp [fetch, hp, hu, MicroPc.uop, hq]

theorem fetch_of_nothing {s : State} (hp : s.port = none) (hu : s.upc = .idle) (hq : s.program = []) : fetch s = .quiet s := by
  simp [fetch, hp, hu, MicroPc.uop, hq]

theorem step_of_fetch_quiet {s t : State} (h : fetch s = .quiet t) : step s = .next t := by
  rw [step, h]

theorem step_of_program_decoded {s : State} {ports : HostPorts} {rest : List HostAction} {i : Instr} (hp : s.port = none)
    (hu : s.upc = .idle) (hq : s.program = .operation ports :: rest) (hd : decode (.op ports) = .instr i) :
    step s = exec i { s with program := rest } :=
  step_of_fetched_instr ((fetch_of_program hp hu hq).trans (accept_of_decoded hd _))

end Sys2Proof.Machine
end

section
/-! Dead registers (R13, R37): a step of a state and a step of the same state with its dead registers at 0 have outcomes that are equal up
to dead registers, place by place of the sequencer; two states that differ in dead registers alone share the state without them. -/

namespace Sys2Proof.Machine

@[simp] theorem State.withoutDead_upc (s : State) : s.withoutDead.upc = s.upc := rfl
@[simp] theorem State.withoutDead_S (s : State) : s.withoutDead.S = s.S := rfl
@[simp] theorem State.withoutDead_W (s : State) : s.withoutDead.W = s.W.live s.upc := rfl

/-- An invalid fork record stands at 0 already. -/
@[simp] theorem lfPos_masked_twice (valid : Bool) (pos : BitVec 6) :
    (if valid = true then (if valid = true then pos else 0#6) else 0#6) = if valid = true then pos else 0#6 := by
  cases valid <;> rfl

/-- What is dead stays dead. -/
theorem Working.live_live (u : MicroPc) (w : Working) : (w.live u).live u = w.live u := by
  cases u <;> simp [Working.live]

@[simp] theorem State.withoutDead_withoutDead (s : State) : s.withoutDead.withoutDead = s.withoutDead := by
  rw [State.withoutDead, State.withoutDead_W, State.withoutDead_upc, Working.live_live]
  rfl

/-- An instruction's outcome on `s` does not depend on the dead registers of `s`, up to dead registers. -/
def IgnoresDead (i : Instr) (s : State) : Prop :=
  outcomeWithoutDead (exec i s.withoutDead) = outcomeWithoutDead (exec i s)

/-- An instruction that leads from `s` and from `s` without its dead registers to next states that are equal up to dead registers. -/
theorem IgnoresDead.of_next {i : Instr} {s t t' : State} (h : exec i s = .next t) (h' : exec i s.withoutDead = .next t')
    (ht : t'.withoutDead = t.withoutDead) : IgnoresDead i s := by
  rw [IgnoresDead, h, h', outcomeWithoutDead, outcomeWithoutDead, ht]

/-- An operation that waits at its place for a primitive to return (R62). -/
theorem IgnoresDead.of_waiting {i : Instr} {s : State} {u : MicroPc} (hu : s.upc = u) (h : exec i s = .next (s.goto u))
    (h' : exec i s.withoutDead = .next (s.withoutDead.goto u)) : IgnoresDead i s :=
  .of_next h h' (by rw [State.goto_self hu, State.goto_self (s := s.withoutDead) hu, State.withoutDead_withoutDead])

/-! ### Host operations -/

/-- An idle block has no live register, and a busy one refuses (R173(b)). -/
theorem ignoresDead_of_hostOperation {ports : HostPorts} {i : Instr} (hd : decode (.op ports) = .instr i) (s : State) :
    IgnoresDead i s := by
  by_cases hidle : s.upc = .idle
  · rcases decodeOp_cases hd with ⟨c, v, rfl⟩ | ⟨cap, buffer, -, rfl⟩ | ⟨input, rfl⟩
    · exact .of_next (exec_init_of_idle hidle c v) (exec_init_of_idle (s := s.withoutDead) hidle c v)
        (by simp [State.withoutDead, hidle, Working.live])
    · cases hw : s.written with
      | true =>
        exact .of_next (execRun_of_accepted hidle hw _) (execRun_of_accepted (s := s.withoutDead) hidle hw _)
          (by simp [State.withoutDead, Working.live])
      | false =>
        rw [IgnoresDead, exec_run_of_unwritten hidle hw, exec_run_of_unwritten (s := s.withoutDead) hidle hw]
    · exact .of_next (exec_checksum_of_idle hidle input) (exec_checksum_of_idle (s := s.withoutDead) hidle input)
        (by simp [State.withoutDead, hidle, Working.live])
  · rw [IgnoresDead, exec_hostOperation_of_busy hd hidle, exec_hostOperation_of_busy (s := s.withoutDead) hd hidle]

/-! ### The frame of a transaction -/

theorem ignoresDead_statusTest (s : State) : IgnoresDead .statusTest s := by
  by_cases h : s.S.status = .more
  · exact .of_next (exec_statusTest_of_more h) (exec_statusTest_of_more (s := s.withoutDead) h)
      (by simp [State.withoutDead, Working.live])
  · exact .of_next (exec_statusTest_of_terminal h) (exec_statusTest_of_terminal (s := s.withoutDead) h)
      (by simp [State.withoutDead, Working.live])

theorem ignoresDead_loopTest {s : State} (hu : s.upc = .loop) : IgnoresDead .loopTest s := by
  have hcount : s.withoutDead.W.count = s.W.count := by simp [hu, Working.live]
  by_cases h : s.W.count < s.capacity
  · exact .of_next (exec_loopTest_of_room h) (exec_loopTest_of_room (s := s.withoutDead) (by rwa [hcount]))
      (by simp [State.withoutDead, hu, Working.live])
  · exact .of_next (exec_loopTest_of_full h) (exec_loopTest_of_full (s := s.withoutDead) (by rwa [hcount]))
      (by simp [State.withoutDead, hu, Working.live])

theorem ignoresDead_txBegin {s : State} (hu : s.upc = .txReset) : IgnoresDead .txBegin s := by
  cases h : s.bus.issue .reset with
  | none =>
    exact .of_next (congrArg Host.Outcome.next (txBeginOp_of_stuck h))
      (congrArg Host.Outcome.next (txBeginOp_of_stuck (s := s.withoutDead) h))
      (by simp [State.withoutDead, hu, Working.live, State.goto, State.setW])
  | some r =>
    obtain ⟨presence, bus'⟩ := r
    refine .of_next (exec_txBegin_of_returns h) (exec_txBegin_of_returns (s := s.withoutDead) h) ?_
    cases presence <;> simp [State.withoutDead, hu, Working.live]

theorem ignoresDead_txCmd {s : State} (hu : s.upc = .txCmd) : IgnoresDead .txCmd s := by
  cases h : s.bus.issue (.writeCommand s.S.command) with
  | none =>
    exact .of_waiting hu (execTxCmd_of_stuck h) (execTxCmd_of_stuck (s := s.withoutDead) h)
  | some r =>
    exact .of_next (exec_txCmd_of_returns h) (exec_txCmd_of_returns (s := s.withoutDead) h)
      (by simp [State.withoutDead, hu, Working.live])

/-! ### A bit round -/

theorem ignoresDead_readPair_of_rdP {s : State} (hu : s.upc = .rdP) : IgnoresDead .readPair s := by
  have hne : s.upc ≠ .rdN := by simp [hu]
  cases h : s.bus.issue .readBit with
  | none =>
    exact .of_waiting hu (congrArg Host.Outcome.next (readPairOp_of_stuck_at_rdP hu h))
      (congrArg Host.Outcome.next (readPairOp_of_stuck_at_rdP (s := s.withoutDead) hu h))
  | some r =>
    obtain ⟨p, bus₁⟩ := r
    cases h₁ : bus₁.issue .readBit with
    | none =>
      exact .of_next (exec_readPair_of_stuck_second hne h h₁) (exec_readPair_of_stuck_second (s := s.withoutDead) hne h h₁)
        (by simp [State.withoutDead, hu, Working.live])
    | some r₁ =>
      exact .of_next (exec_readPair_of_returns hne h h₁) (exec_readPair_of_returns (s := s.withoutDead) hne h h₁)
        (by simp [State.withoutDead, hu, Working.live])

theorem ignoresDead_readPair_of_rdN {s : State} (hu : s.upc = .rdN) : IgnoresDead .readPair s := by
  cases h : s.bus.issue .readBit with
  | none =>
    exact .of_waiting hu (congrArg Host.Outcome.next (readPairOp_of_stuck_at_rdN hu h))
      (congrArg Host.Outcome.next (readPairOp_of_stuck_at_rdN (s := s.withoutDead) hu h))
  | some r =>
    exact .of_next (exec_readPair_at_rdN hu h) (exec_readPair_at_rdN (s := s.withoutDead) hu h)
      (by simp [State.withoutDead, hu, Working.live])

/-- The arm of a fork reads live registers only. -/
theorem forkArm_withoutDead {s : State} (hu : s.upc = .resolve) : forkArm s.withoutDead = forkArm s := by
  simp [forkArm, replayOk, forkLt, forkEq, hu, Working.live]

theorem pairForkOp_withoutDead {s : State} (hu : s.upc = .resolve) :
    (pairForkOp s.withoutDead).withoutDead = (pairForkOp s).withoutDead := by
  have hindex : (s.W.live .resolve).index = s.W.index := rfl
  have hreplay : (forkReplayOp s.withoutDead).withoutDead = (forkReplayOp s).withoutDead := by
    simp only [forkReplayOp, State.withoutDead_S, State.withoutDead_W, hu, hindex]
    cases romGetBit s.S.previousCode s.W.index <;>
      simp [resolved, State.withoutDead, hu, Working.live, Working.recordFork, Working.index, State.setW, State.goto]
  rw [pairForkOp, pairForkOp, forkArm_withoutDead hu]
  cases forkArm s with
  | replay => exact hreplay
  | exhausted => simp [forkExhaustedOp, resolved, State.withoutDead, hu, Working.live, State.setW, State.goto]
  | newBarred | newBeyond =>
    simp [forkNewOp, resolved, State.withoutDead, hu, Working.live, Working.recordFork, Working.index, State.setW, State.goto]

theorem ignoresDead_classify {s : State} (hu : s.upc = .resolve) : IgnoresDead .classify s := by
  refine .of_next rfl rfl ?_
  have hclass : pairClass s.withoutDead.W.p s.withoutDead.W.n = pairClass s.W.p s.W.n := by simp [hu, Working.live]
  rw [classifyOp, classifyOp, hclass]
  cases pairClass s.W.p s.W.n with
  | fork => exact pairForkOp_withoutDead hu
  | zero | one => simp [adopt, resolved, State.withoutDead, hu, Working.live, State.setW, State.goto]
  | fail => simp [raiseFailedOp_eq, State.withoutDead, hu, Working.live]

theorem ignoresDead_writeBack {s : State} (hu : s.upc = .wrBit) : IgnoresDead .writeBack s := by
  have hr : s.withoutDead.W.r = s.W.r := by simp [hu, Working.live]
  cases h : s.bus.issue (.writeBit s.W.r) with
  | none =>
    exact .of_waiting hu (congrArg Host.Outcome.next (writeBackOp_of_stuck h))
      (congrArg Host.Outcome.next (writeBackOp_of_stuck (s := s.withoutDead) (by rwa [hr])))
  | some r =>
    exact .of_next (exec_writeBack_of_returns h) (exec_writeBack_of_returns (s := s.withoutDead) (by rwa [hr]))
      (by simp [State.withoutDead, hu, Working.live])

theorem ignoresDead_store {s : State} (hu : s.upc = .wrStore) : IgnoresDead .store s :=
  .of_next (exec_store _) (exec_store _) (by simp [State.withoutDead, hu, Working.live, Working.index])

theorem ignoresDead_advance {s : State} (hu : s.upc = .wrAdvance) : IgnoresDead .advance s := by
  have hi : s.withoutDead.W.i = s.W.i := by simp [hu, Working.live]
  have h := exec_advance s
  have h' := exec_advance s.withoutDead
  rw [hi] at h'
  by_cases hlast : s.W.i + 1 = 64
  · rw [if_pos hlast] at h h'
    exact .of_next h h' (by simp [State.withoutDead, hu, Working.live])
  · rw [if_neg hlast] at h h'
    exact .of_next h h' (by simp [State.withoutDead, hu, Working.live])

/-! ### The commit and the exit -/

theorem ignoresDead_commit {s : State} (hu : s.upc = .commit) : IgnoresDead .commit s :=
  .of_next (exec_commit _) (exec_commit _) (by simp [State.withoutDead, hu, Working.live])

theorem ignoresDead_crcFilter {s : State} (hu : s.upc = .commitFilter) : IgnoresDead .crcFilter s := by
  cases hv : s.S.verifyChecksums with
  | false =>
    exact .of_next (exec_crcFilter_of_unverified hv) (exec_crcFilter_of_unverified (s := s.withoutDead) hv)
      (by simp [State.withoutDead, hu, Working.live])
  | true =>
    have hcode : s.withoutDead.W.code = s.W.code := by simp [hu, Working.live]
    have h := exec_crcFilter_of_verified hv
    have h' := exec_crcFilter_of_verified (s := s.withoutDead) hv
    rw [hcode] at h'
    by_cases hcrc : crc8 (romBytes s.W.code) = 0
    · rw [if_pos hcrc] at h h'
      exact .of_next h h' (by simp [State.withoutDead, hu, Working.live])
    · rw [if_neg hcrc] at h h'
      exact .of_next h h' (by simp [State.withoutDead, hu, Working.live])

theorem ignoresDead_emit {s : State} (hu : s.upc = .commitEmit) : IgnoresDead .emit s := by
  have hcount : s.withoutDead.W.count = s.W.count := by simp [hu, Working.live]
  by_cases h : s.W.count < s.capacity
  · exact .of_next (exec_emit_of_room h) (exec_emit_of_room (s := s.withoutDead) (by rwa [hcount]))
      (by simp [State.withoutDead, hu, Working.live])
  · rw [IgnoresDead, exec_emit_of_full h, exec_emit_of_full (s := s.withoutDead) (by rwa [hcount]), hcount]

theorem ignoresDead_doneTest {s : State} (hu : s.upc = .commitDone) : IgnoresDead .doneTest s := by
  have hvalid : s.withoutDead.W.lfValid = s.W.lfValid := by simp [hu, Working.live]
  cases h : s.W.lfValid with
  | false =>
    exact .of_next (exec_doneTest_of_no_fork h) (exec_doneTest_of_no_fork (s := s.withoutDead) (hvalid.trans h))
      (by simp [State.withoutDead, hu, Working.live])
  | true =>
    exact .of_next (exec_doneTest_of_fork h) (exec_doneTest_of_fork (s := s.withoutDead) (hvalid.trans h))
      (by simp [State.withoutDead, hu, Working.live, h])

theorem ignoresDead_saveFork {s : State} (hu : s.upc = .commitSave) : IgnoresDead .saveFork s :=
  .of_next (exec_saveFork _) (exec_saveFork _) (by simp [State.withoutDead, hu, Working.live])

theorem ignoresDead_exit {s : State} (hu : s.upc = .exit) : IgnoresDead .exit s :=
  .of_next (exec_exit _) (exec_exit _) (by simp [State.withoutDead, hu, Working.live])

/-! ### A step -/

theorem ignoresDead_of_uop {s : State} {i : Instr} (hi : s.upc.uop = some i) : IgnoresDead i s := by
  cases hu : s.upc <;> rw [hu] at hi <;> cases hi
  case check => exact ignoresDead_statusTest s
  case loop => exact ignoresDead_loopTest hu
  case txReset => exact ignoresDead_txBegin hu
  case txCmd => exact ignoresDead_txCmd hu
  case rdP => exact ignoresDead_readPair_of_rdP hu
  case rdN => exact ignoresDead_readPair_of_rdN hu
  case resolve => exact ignoresDead_classify hu
  case wrBit => exact ignoresDead_writeBack hu
  case wrStore => exact ignoresDead_store hu
  case wrAdvance => exact ignoresDead_advance hu
  case commit => exact ignoresDead_commit hu
  case commitFilter => exact ignoresDead_crcFilter hu
  case commitEmit => exact ignoresDead_emit hu
  case commitDone => exact ignoresDead_doneTest hu
  case commitSave => exact ignoresDead_saveFork hu
  case exit => exact ignoresDead_exit hu

/-- What the fetch finds, without the dead registers of the state it leaves. -/
def Fetched.withoutDead : Fetched → Fetched
  | .instr i s => .instr i s.withoutDead
  | .quiet s => .quiet s.withoutDead
  | .refused r => .refused r

/-- The acceptance of a host action reads no register of `W`. -/
theorem accept_withoutDead (a : HostAction) (s : State) : accept a s.withoutDead = (accept a s).withoutDead := by
  cases a with
  | operation ports =>
    simp only [accept]
    cases decode (.op ports) <;> rfl
  | readField f =>
    by_cases hidle : s.upc = .idle
    · rw [accept, accept, if_pos hidle, if_pos (show s.withoutDead.upc = .idle from hidle)]
      rfl
    · rw [accept, accept, if_neg hidle, if_neg (show ¬ s.withoutDead.upc = .idle from hidle)]
      rfl
  | writeField f v => rfl

/-- The fetch reads no register of `W`. -/
theorem fetch_withoutDead (s : State) : fetch s.withoutDead = (fetch s).withoutDead := by
  rcases fetch_cases s with ⟨a, hp, hf⟩ | ⟨i, hp, hu, hf⟩ | ⟨a, rest, hp, hu, hq, hf⟩ | ⟨hp, hu, hq, hf⟩ <;> rw [hf]
  · rw [fetch_of_port (s := s.withoutDead) hp]
    exact accept_withoutDead a { s with port := none }
  · exact fetch_of_uop (s := s.withoutDead) hp hu
  · rw [fetch_of_program (s := s.withoutDead) hp hu hq]
    exact accept_withoutDead a { s with program := rest }
  · exact fetch_of_nothing (s := s.withoutDead) hp hu hq

theorem step_withoutDead (s : State) : outcomeWithoutDead (step s.withoutDead) = outcomeWithoutDead (step s) := by
  cases hf : fetch s with
  | instr i s' =>
    have hf' : fetch s.withoutDead = .instr i s'.withoutDead := by rw [fetch_withoutDead, hf, Fetched.withoutDead]
    rw [step_of_fetched_instr hf, step_of_fetched_instr hf']
    obtain ⟨hs', hu | ⟨ports, hd⟩⟩ := fetch_eq_instr hf
    · exact ignoresDead_of_uop (by rw [hs']; exact hu)
    · exact ignoresDead_of_hostOperation hd s'
  | quiet t =>
    have hf' : fetch s.withoutDead = .quiet t.withoutDead := by rw [fetch_withoutDead, hf, Fetched.withoutDead]
    rw [step_of_fetch_quiet hf, step_of_fetch_quiet hf', outcomeWithoutDead, outcomeWithoutDead, State.withoutDead_withoutDead]
  | refused r =>
    have hf' : fetch s.withoutDead = .refused r := by rw [fetch_withoutDead, hf, Fetched.withoutDead]
    rw [step_of_fetch_refused hf, step_of_fetch_refused hf']

/-- Settles O56: both steps have the outcome, up to dead registers, of a step of the state that the two share. -/
theorem deadWorkingRegistersAreNeverRead : Obligations.DeadWorkingRegistersAreNeverRead := by
  intro s t h
  rw [← step_withoutDead s, h, step_withoutDead t]

end Sys2Proof.Machine
end

section
/-! What the machine invariant says at each place of the sequencer, in terms of the parts of the state that its clauses read. -/

namespace Sys2Proof.Machine

/-- The previous code has a 0 at the previous fork position, and is zero before any completed transaction (R118, R11); of no interest on a
terminal status. -/
def SearchState.History (S : SearchState) : Prop :=
  S.status = .more →
    S.previousCode.getLsbD S.previousForkPosition.val = false ∧ (S.previousForkPosition = 64 → S.previousCode = 0)

/-- The fork record names an earlier round that stored a 0 (R133). -/
def Working.RecordStored (w : Working) : Prop :=
  w.lfValid = true → w.lfPos.toNat < w.i.toNat ∧ w.code.getLsbD w.lfPos.toNat = false

/-- The fork record may also name the round in progress, which has resolved to 0 and is still to be stored. -/
def Working.RecordResolved (w : Working) : Prop :=
  w.lfValid = true →
    (w.lfPos.toNat < w.i.toNat ∧ w.code.getLsbD w.lfPos.toNat = false) ∨ (w.lfPos.toNat = w.i.toNat ∧ w.r = false)

/-- The round in progress has stored its bit and is still to be advanced past. -/
def Working.RecordWritten (w : Working) : Prop :=
  w.lfValid = true → w.lfPos.toNat ≤ w.i.toNat ∧ w.code.getLsbD w.lfPos.toNat = false

/-- A transaction is open: the search goes on, and its code has room (R102). -/
structure TransactionOpen (S : SearchState) (count capacity : BitVec 16) (written : Bool) : Prop where
  written : written = true
  status : S.status = .more
  history : S.History
  room : count < capacity

/-- A transaction's code has been copied, and its fork record is still to be saved (R110). -/
structure TransactionCopied (S : SearchState) (w : Working) (written : Bool) : Prop where
  written : written = true
  status : S.status = .more
  complete : w.i = 64
  record : w.RecordStored
  copied : S.previousCode = w.code

/-- The clauses of the machine invariant at a place of the sequencer. -/
abbrev placeInvariant (u : MicroPc) (s : State) : Prop :=
  match u with
  | .idle => s.S.History
  | .check => s.written = true ∧ s.S.History
  | .loop => s.written = true ∧ s.S.status = .more ∧ s.S.History ∧ s.W.count ≤ s.capacity
  | .txReset => TransactionOpen s.S s.W.count s.capacity s.written
  | .txCmd => TransactionOpen s.S s.W.count s.capacity s.written ∧ s.W.i = 0 ∧ s.W.lfValid = false
  | .rdP | .rdN | .resolve =>
    TransactionOpen s.S s.W.count s.capacity s.written ∧ s.W.i.toNat < 64 ∧ s.W.RecordStored
  | .wrBit | .wrStore => TransactionOpen s.S s.W.count s.capacity s.written ∧ s.W.i.toNat < 64 ∧ s.W.RecordResolved
  | .wrAdvance => TransactionOpen s.S s.W.count s.capacity s.written ∧ s.W.i.toNat < 64 ∧ s.W.RecordWritten
  | .commit => TransactionOpen s.S s.W.count s.capacity s.written ∧ s.W.i = 64 ∧ s.W.RecordStored
  | .commitFilter | .commitEmit => TransactionCopied s.S s.W s.written ∧ s.W.count < s.capacity
  | .commitDone => TransactionCopied s.S s.W s.written ∧ s.W.count ≤ s.capacity
  | .commitSave => TransactionCopied s.S s.W s.written ∧ s.W.count ≤ s.capacity ∧ s.W.lfValid = true
  | .exit => s.written = true ∧ s.S.History ∧ s.W.count ≤ s.capacity

/-! ### From the invariant to the place -/

section
variable {s : State} {u : MicroPc} (h : MachineInvariant s) (hu : s.upc = u)
include h hu

theorem MachineInvariant.history (hhalf : u.halfCommitted = false) : s.S.History := by
  subst hu
  exact fun hmore => ⟨h.forkPoint hmore hhalf, h.noHistory hmore hhalf⟩

theorem MachineInvariant.written_of_searching (hsearch : u.searching = true) : s.written = true := by
  subst hu
  refine h.written fun hidle => ?_
  rw [hidle] at hsearch
  cases hsearch

theorem MachineInvariant.transactionOpen (hsearch : u.searching = true) (hbefore : u.beforeEmission = true)
    (hhalf : u.halfCommitted = false) : TransactionOpen s.S s.W.count s.capacity s.written := by
  have hhistory := h.history hu hhalf
  have hwritten := h.written_of_searching hu hsearch
  subst hu
  exact ⟨hwritten, h.status hsearch, hhistory, h.roomLeft hbefore⟩

theorem MachineInvariant.transactionCopied (hsearch : u.searching = true) (hcommit : u.committing = true)
    (hhalf : u.halfCommitted = true) (hrecord : s.W.RecordStored) : TransactionCopied s.S s.W s.written := by
  have hwritten := h.written_of_searching hu hsearch
  subst hu
  exact ⟨hwritten, h.status hsearch, h.complete hcommit, hrecord, h.copied hhalf⟩

end

theorem MachineInvariant.atPlace {s : State} {u : MicroPc} (h : MachineInvariant s) (hu : s.upc = u) : placeInvariant u s := by
  have hrec := h.record
  unfold forkRecordSound at hrec
  cases u <;> simp only [hu] at hrec ⊢
  case idle => exact h.history hu rfl
  case check => exact ⟨h.written (by simp [hu]), h.history hu rfl⟩
  case loop => exact ⟨h.written_of_searching hu rfl, h.status (by rw [hu]; rfl), h.history hu rfl, h.countWithin (by rw [hu]; rfl)⟩
  case txReset => exact h.transactionOpen hu rfl rfl rfl
  case txCmd => exact ⟨h.transactionOpen hu rfl rfl rfl, h.start hu, hrec⟩
  case rdP | rdN | resolve => exact ⟨h.transactionOpen hu rfl rfl rfl, h.round (by rw [hu]; rfl), hrec⟩
  case wrBit | wrStore => exact ⟨h.transactionOpen hu rfl rfl rfl, h.round (by rw [hu]; rfl), hrec⟩
  case wrAdvance => exact ⟨h.transactionOpen hu rfl rfl rfl, h.round (by rw [hu]; rfl), hrec⟩
  case commit => exact ⟨h.transactionOpen hu rfl rfl rfl, h.complete (by rw [hu]; rfl), hrec⟩
  case commitFilter | commitEmit => exact ⟨h.transactionCopied hu rfl rfl rfl hrec, h.roomLeft (by rw [hu]; rfl)⟩
  case commitDone => exact ⟨h.transactionCopied hu rfl rfl rfl hrec, h.countWithin (by rw [hu]; rfl)⟩
  case commitSave => exact ⟨h.transactionCopied hu rfl rfl rfl hrec, h.countWithin (by rw [hu]; rfl), h.saving hu⟩
  case exit => exact ⟨h.written (by simp [hu]), h.history hu rfl, h.countWithin (by rw [hu]; rfl)⟩

/-! ### From the place to the invariant -/

theorem MicroPc.halfCommitted_cases {u : MicroPc} (h : u.halfCommitted = true) :
    u = .commitFilter ∨ u = .commitEmit ∨ u = .commitDone ∨ u = .commitSave := by
  cases u <;> simp [MicroPc.halfCommitted] at h ⊢

section
variable {s : State} {u : MicroPc} (hwf : s.out.wf) (hbuffer : s.out.addresses = List.range (8 * s.capacity.toNat))
  (hu : s.upc = u)
include hwf hbuffer hu

/-- Outside a transaction. -/
theorem SearchState.History.machineInvariant (h : s.S.History) (hwritten : u ≠ .idle → s.written = true)
    (hstatus : u.searching = true → s.S.status = .more) (hcount : u.afterEmission = true → s.W.count ≤ s.capacity)
    (hplace : u = .idle ∨ u = .check ∨ u = .loop ∨ u = .exit) : MachineInvariant s := by
  subst hu
  have hrecord : forkRecordSound s := by
    rcases hplace with hu | hu | hu | hu <;> simp [forkRecordSound, hu]
  refine ⟨hwf, hbuffer, hwritten, hstatus, ?_, hcount, ?_, ?_, ?_, hrecord, ?_, ?_, fun hmore _ => (h hmore).1,
    fun hmore _ => (h hmore).2⟩ <;> rcases hplace with hu | hu | hu | hu <;> rw [hu] <;> nofun

/-- In a transaction up to its commit. -/
theorem TransactionOpen.machineInvariant (h : TransactionOpen s.S s.W.count s.capacity s.written)
    (hhalf : u.halfCommitted = false) (hstart : u = .txCmd → s.W.i = 0) (hround : u.inRound = true → s.W.i.toNat < 64)
    (hcomplete : u.committing = true → s.W.i = 64) (hrecord : forkRecordSound s) : MachineInvariant s := by
  subst hu
  have hnot : ¬ s.upc.halfCommitted = true := by simp [hhalf]
  exact ⟨hwf, hbuffer, fun _ => h.written, fun _ => h.status, fun _ => h.room, fun _ => BitVec.le_of_lt h.room, hstart, hround,
    hcomplete, hrecord, fun hcopied => absurd hcopied hnot, fun hsave => absurd (by rw [hsave]; rfl) hnot,
    fun hmore _ => (h.history hmore).1, fun hmore _ => (h.history hmore).2⟩

/-- In a transaction between the copy and the saving of the fork position. -/
theorem TransactionCopied.machineInvariant (h : TransactionCopied s.S s.W s.written) (hhalf : u.halfCommitted = true)
    (hroom : u.beforeEmission = true → s.W.count < s.capacity) (hcount : u.afterEmission = true → s.W.count ≤ s.capacity)
    (hsaving : u = .commitSave → s.W.lfValid = true) : MachineInvariant s := by
  subst hu
  have hplace := MicroPc.halfCommitted_cases hhalf
  have hrecord : forkRecordSound s := by
    unfold forkRecordSound
    rcases hplace with hu | hu | hu | hu <;> rw [hu] <;> exact h.record
  have hopen : ¬ s.upc.halfCommitted = false := by simp [hhalf]
  refine ⟨hwf, hbuffer, fun _ => h.written, fun _ => h.status, hroom, hcount, ?_, ?_, fun _ => h.complete, hrecord,
    fun _ => h.copied, hsaving, fun _ hu => absurd hu hopen, fun _ hu => absurd hu hopen⟩ <;>
    rcases hplace with hu | hu | hu | hu <;> rw [hu] <;> nofun

end

/-- What the place says is all that the invariant says besides the form of `OUT`. -/
theorem machineInvariant_of_place {s : State} {u : MicroPc} (hwf : s.out.wf)
    (hbuffer : s.out.addresses = List.range (8 * s.capacity.toNat)) (hu : s.upc = u) (h : placeInvariant u s) :
    MachineInvariant s := by
  cases u
  case idle => exact h.machineInvariant hwf hbuffer hu nofun nofun nofun (by simp)
  case check => exact h.2.machineInvariant hwf hbuffer hu (fun _ => h.1) nofun nofun (by simp)
  case loop =>
    obtain ⟨hwritten, hmore, hhistory, hcount⟩ := h
    exact hhistory.machineInvariant hwf hbuffer hu (fun _ => hwritten) (fun _ => hmore) (fun _ => hcount) (by simp)
  case exit =>
    obtain ⟨hwritten, hhistory, hcount⟩ := h
    exact hhistory.machineInvariant hwf hbuffer hu (fun _ => hwritten) nofun (fun _ => hcount) (by simp)
  case txReset => exact h.machineInvariant hwf hbuffer hu rfl nofun nofun nofun (by simp [forkRecordSound, hu])
  case txCmd =>
    obtain ⟨hopen, hi, hrec⟩ := h
    exact hopen.machineInvariant hwf hbuffer hu rfl (fun _ => hi) nofun nofun (by unfold forkRecordSound; rw [hu]; exact hrec)
  case rdP | rdN | resolve | wrBit | wrStore | wrAdvance =>
    obtain ⟨hopen, hi, hrec⟩ := h
    exact hopen.machineInvariant hwf hbuffer hu rfl nofun (fun _ => hi) nofun (by unfold forkRecordSound; rw [hu]; exact hrec)
  case commit =>
    obtain ⟨hopen, hi, hrec⟩ := h
    exact hopen.machineInvariant hwf hbuffer hu rfl nofun nofun (fun _ => hi) (by unfold forkRecordSound; rw [hu]; exact hrec)
  case commitFilter | commitEmit => exact h.1.machineInvariant hwf hbuffer hu rfl (fun _ => h.2) nofun nofun
  case commitDone => exact h.1.machineInvariant hwf hbuffer hu rfl nofun (fun _ => h.2) nofun
  case commitSave =>
    obtain ⟨hcopied, hcount, hvalid⟩ := h
    exact hcopied.machineInvariant hwf hbuffer hu rfl nofun (fun _ => hcount) (fun _ => hvalid)

/-- A move to another place that leaves `OUT` and the capacity alone. -/
theorem MachineInvariant.moved {s t : State} {u : MicroPc} (h : MachineInvariant s) (hout : t.out = s.out)
    (hcap : t.capacity = s.capacity) (hu : t.upc = u) (hplace : placeInvariant u t) : MachineInvariant t :=
  machineInvariant_of_place (by rw [hout]; exact h.memory) (by rw [hout, hcap]; exact h.buffer) hu hplace

end Sys2Proof.Machine
end

section
/-! Every step keeps the machine invariant: each micro-operation leads from what the invariant says at its place to what it says at the next,
and the host operations from idle to idle or to CHECK.  The one fault of the model needs an emission without room. -/

namespace Sys2Proof.Machine

/-! ### Parts of the invariant -/

theorem SearchState.history_of_terminal {S : SearchState} (h : S.status ≠ .more) : S.History := fun hmore => absurd hmore h

/-- What a failure in a transaction leaves at the exit (R164). -/
theorem TransactionOpen.failed {S : SearchState} {count capacity : BitVec 16} {written : Bool}
    (h : TransactionOpen S count capacity written) :
    written = true ∧ SearchState.History { S with status := .failed } ∧ count ≤ capacity :=
  ⟨h.written, SearchState.history_of_terminal nofun, BitVec.le_of_lt h.room⟩

theorem Working.recordStored_of_none {w : Working} (h : w.lfValid = false) : w.RecordStored := fun hvalid => by
  rw [h] at hvalid
  cases hvalid

/-- The resolution of a pair records only a fork resolved to 0 (R126 to R128). -/
theorem Working.RecordStored.resolve {w : Working} {bit recorded : Bool} (h : w.RecordStored) (hi : w.i.toNat < 64)
    (hrec : recorded = true → bit = false) : (w.resolve bit recorded).RecordResolved := by
  cases recorded with
  | true => exact fun _ => .inr ⟨Working.index_toNat hi, hrec rfl⟩
  | false => exact fun hvalid => .inl (h hvalid)

/-- The store writes bit `W.i` alone (R130). -/
theorem Working.RecordResolved.store {w : Working} (h : w.RecordResolved) (hi : w.i.toNat < 64) :
    Working.RecordWritten { w with code := romSetBit w.code w.index w.r } := by
  intro hvalid
  have hbit : (romSetBit w.code w.index w.r).getLsbD w.lfPos.toNat =
      if w.lfPos.toNat = w.i.toNat then w.r else w.code.getLsbD w.lfPos.toNat := by
    rw [getLsbD_romSetBit _ _ _ w.lfPos.isLt, Working.index_toNat hi]
  rcases h hvalid with ⟨hlt, hzero⟩ | ⟨heq, hr⟩
  · exact ⟨Nat.le_of_lt hlt, by rw [hbit, if_neg (Nat.ne_of_lt hlt), hzero]⟩
  · exact ⟨Nat.le_of_eq heq, by rw [hbit, if_pos heq, hr]⟩

theorem Working.RecordWritten.advance {w : Working} (h : w.RecordWritten) (hi : w.i.toNat < 64) :
    Working.RecordStored { w with i := w.i + 1 } := fun hvalid => by
  obtain ⟨hle, hzero⟩ := h hvalid
  have hlt : w.lfPos.toNat < (w.i + 1).toNat := by
    rw [Working.i_add_one_toNat hi]
    omega
  exact ⟨hlt, hzero⟩

/-- A saved fork position is a position of a 0 of the code, and not the sentinel (R114). -/
theorem history_of_savedFork {S : SearchState} {w : Working} (hrecord : w.RecordStored) (hcopied : S.previousCode = w.code)
    (hvalid : w.lfValid = true) : SearchState.History { S with previousForkPosition := forkPositionOf w.lfPos } := by
  refine fun _ => ⟨hcopied ▸ (hrecord hvalid).2, fun hsentinel => ?_⟩
  have hlt := w.lfPos.isLt
  have heq : w.lfPos.toNat = 64 := congrArg Fin.val hsentinel
  omega

/-! ### The micro-operations -/

section
variable {s t : State} (h : MachineInvariant s)
include h

theorem MachineInvariant.after_statusTest (hu : s.upc = .check) (hx : exec .statusTest s = .next t) : MachineInvariant t := by
  obtain ⟨hwritten, hhistory⟩ := h.atPlace hu
  by_cases hmore : s.S.status = .more
  · rw [exec_statusTest_of_more hmore] at hx
    cases hx
    exact h.moved rfl rfl rfl ⟨hwritten, hmore, hhistory, Nat.zero_le _⟩
  · rw [exec_statusTest_of_terminal hmore] at hx
    cases hx
    exact h.moved rfl rfl rfl hhistory

theorem MachineInvariant.after_loopTest (hu : s.upc = .loop) (hx : exec .loopTest s = .next t) : MachineInvariant t := by
  obtain ⟨hwritten, hmore, hhistory, hcount⟩ := h.atPlace hu
  by_cases hroom : s.W.count < s.capacity
  · rw [exec_loopTest_of_room hroom] at hx
    cases hx
    exact h.moved rfl rfl rfl ⟨hwritten, hmore, hhistory, hroom⟩
  · rw [exec_loopTest_of_full hroom] at hx
    cases hx
    exact h.moved rfl rfl rfl ⟨hwritten, hhistory, hcount⟩

theorem MachineInvariant.after_txBegin (hu : s.upc = .txReset) (hx : exec .txBegin s = .next t) : MachineInvariant t := by
  have hopen := h.atPlace hu
  cases hissue : s.bus.issue .reset with
  | none =>
    rw [exec, execTxBegin, txBeginOp_of_stuck hissue] at hx
    cases hx
    exact h.moved rfl rfl rfl hopen
  | some r =>
    obtain ⟨presence, bus'⟩ := r
    rw [exec_txBegin_of_returns hissue] at hx
    cases hx
    cases presence with
    | false => exact h.moved rfl rfl rfl hopen.failed
    | true => exact h.moved rfl rfl rfl ⟨hopen, rfl, rfl⟩

theorem MachineInvariant.after_txCmd (hu : s.upc = .txCmd) (hx : exec .txCmd s = .next t) : MachineInvariant t := by
  obtain ⟨hopen, hi, hnone⟩ := h.atPlace hu
  cases hissue : s.bus.issue (.writeCommand s.S.command) with
  | none =>
    rw [exec, execTxCmd_of_stuck hissue] at hx
    cases hx
    exact h.moved rfl rfl rfl ⟨hopen, hi, hnone⟩
  | some r =>
    rw [exec_txCmd_of_returns hissue] at hx
    cases hx
    exact h.moved rfl rfl rfl ⟨hopen, by simp [hi], Working.recordStored_of_none hnone⟩

theorem MachineInvariant.after_readPair (hu : s.upc = .rdP ∨ s.upc = .rdN) (hx : exec .readPair s = .next t) :
    MachineInvariant t := by
  have hplace : placeInvariant .rdP s := by
    rcases hu with hu | hu
    · exact h.atPlace hu
    · exact (h.atPlace hu : placeInvariant .rdN s)
  obtain ⟨p, n, a, bus', events, u, ht, rfl | rfl | rfl⟩ := exec_readPair_eq_next hx <;> subst ht <;>
    exact h.moved rfl rfl rfl hplace

theorem MachineInvariant.after_classify (hu : s.upc = .resolve) (hx : exec .classify s = .next t) : MachineInvariant t := by
  obtain ⟨hopen, hi, hrecord⟩ := h.atPlace hu
  by_cases hpn : s.W.p = true ∧ s.W.n = true
  · rw [exec_classify_of_failing_pair hpn.1 hpn.2] at hx
    cases hx
    exact h.moved rfl rfl rfl hopen.failed
  · rw [exec_classify_of_no_failure hi hpn] at hx
    cases hx
    refine h.moved rfl rfl rfl ⟨by simpa using hopen, by simpa using hi, ?_⟩
    exact hrecord.resolve hi fun hrec => ((recordsFork_iff ..).mp hrec).2.2

theorem MachineInvariant.after_writeBack (hu : s.upc = .wrBit) (hx : exec .writeBack s = .next t) : MachineInvariant t := by
  have hplace := h.atPlace hu
  cases hissue : s.bus.issue (.writeBit s.W.r) with
  | none =>
    rw [exec, execWriteBack, writeBackOp_of_stuck hissue] at hx
    cases hx
    exact h.moved rfl rfl rfl hplace
  | some r =>
    rw [exec_writeBack_of_returns hissue] at hx
    cases hx
    exact h.moved rfl rfl rfl hplace

theorem MachineInvariant.after_store (hu : s.upc = .wrStore) (hx : exec .store s = .next t) : MachineInvariant t := by
  obtain ⟨hopen, hi, hrecord⟩ := h.atPlace hu
  cases hx
  exact h.moved rfl rfl rfl ⟨hopen, hi, hrecord.store hi⟩

theorem MachineInvariant.after_advance (hu : s.upc = .wrAdvance) (hx : exec .advance s = .next t) : MachineInvariant t := by
  obtain ⟨hopen, hi, hrecord⟩ := h.atPlace hu
  have hnext := hrecord.advance hi
  rw [exec_advance_of_lt hi] at hx
  by_cases hlast : s.W.i.toNat = 63
  · rw [if_pos hlast] at hx
    cases hx
    exact h.moved rfl rfl rfl ⟨hopen, by bv_omega, hnext⟩
  · rw [if_neg hlast] at hx
    cases hx
    exact h.moved rfl rfl rfl ⟨hopen, by bv_omega, hnext⟩

theorem MachineInvariant.after_commit (hu : s.upc = .commit) (hx : exec .commit s = .next t) : MachineInvariant t := by
  obtain ⟨hopen, hi, hrecord⟩ := h.atPlace hu
  cases hx
  exact h.moved rfl rfl rfl ⟨⟨hopen.written, hopen.status, hi, hrecord, rfl⟩, hopen.room⟩

theorem MachineInvariant.after_crcFilter (hu : s.upc = .commitFilter) (hx : exec .crcFilter s = .next t) : MachineInvariant t := by
  obtain ⟨⟨hwritten, hmore, hi, hrecord, hcopied⟩, hroom⟩ := h.atPlace hu
  cases hv : s.S.verifyChecksums with
  | false =>
    rw [exec_crcFilter_of_unverified hv] at hx
    cases hx
    exact h.moved rfl rfl rfl ⟨⟨hwritten, hmore, hi, hrecord, hcopied⟩, hroom⟩
  | true =>
    rw [exec_crcFilter_of_verified hv] at hx
    by_cases hcrc : crc8 (romBytes s.W.code) = 0
    · rw [if_pos hcrc] at hx
      cases hx
      exact h.moved rfl rfl rfl ⟨⟨hwritten, hmore, hi, hrecord, hcopied⟩, hroom⟩
    · rw [if_neg hcrc] at hx
      cases hx
      exact h.moved rfl rfl rfl ⟨⟨hwritten, hmore, hi, hrecord, hcopied⟩, BitVec.le_of_lt hroom⟩

/-- The entry written is there, so no byte is added or removed (R43, R195). -/
theorem MachineInvariant.after_emit (hu : s.upc = .commitEmit) (hx : exec .emit s = .next t) : MachineInvariant t := by
  obtain ⟨⟨hwritten, hmore, hi, hrecord, hcopied⟩, -⟩ := h.atPlace hu
  obtain ⟨hroom, rfl⟩ := exec_emit_eq_next hx
  exact machineInvariant_of_place (Memory.writeEntry_wf h.memory _ _) (Memory.addresses_writeEntry h.memory h.buffer _ _ hroom)
    rfl ⟨⟨hwritten, hmore, hi, hrecord, hcopied⟩, by bv_omega⟩

theorem MachineInvariant.after_doneTest (hu : s.upc = .commitDone) (hx : exec .doneTest s = .next t) : MachineInvariant t := by
  obtain ⟨hcommit, hcount⟩ := h.atPlace hu
  cases hvalid : s.W.lfValid with
  | false =>
    rw [exec_doneTest_of_no_fork hvalid] at hx
    cases hx
    exact h.moved rfl rfl rfl ⟨hcommit.written, SearchState.history_of_terminal nofun, hcount⟩
  | true =>
    rw [exec_doneTest_of_fork hvalid] at hx
    cases hx
    exact h.moved rfl rfl rfl ⟨hcommit, hcount, hvalid⟩

theorem MachineInvariant.after_saveFork (hu : s.upc = .commitSave) (hx : exec .saveFork s = .next t) : MachineInvariant t := by
  obtain ⟨hcommit, hcount, hvalid⟩ := h.atPlace hu
  cases hx
  exact h.moved rfl rfl rfl ⟨hcommit.written, hcommit.status, history_of_savedFork hcommit.record hcommit.copied hvalid, hcount⟩

theorem MachineInvariant.after_exit (hu : s.upc = .exit) (hx : exec .exit s = .next t) : MachineInvariant t := by
  obtain ⟨-, hhistory, -⟩ := h.atPlace hu
  cases hx
  exact h.moved rfl rfl rfl hhistory

theorem MachineInvariant.after_uop {i : Instr} (hi : s.upc.uop = some i) (hx : exec i s = .next t) : MachineInvariant t := by
  cases hu : s.upc <;> rw [hu] at hi <;> cases hi
  case check => exact h.after_statusTest hu hx
  case loop => exact h.after_loopTest hu hx
  case txReset => exact h.after_txBegin hu hx
  case txCmd => exact h.after_txCmd hu hx
  case rdP => exact h.after_readPair (.inl hu) hx
  case rdN => exact h.after_readPair (.inr hu) hx
  case resolve => exact h.after_classify hu hx
  case wrBit => exact h.after_writeBack hu hx
  case wrStore => exact h.after_store hu hx
  case wrAdvance => exact h.after_advance hu hx
  case commit => exact h.after_commit hu hx
  case commitFilter => exact h.after_crcFilter hu hx
  case commitEmit => exact h.after_emit hu hx
  case commitDone => exact h.after_doneTest hu hx
  case commitSave => exact h.after_saveFork hu hx
  case exit => exact h.after_exit hu hx

/-! ### The host -/

theorem MachineInvariant.after_init {c : Byte} {v : Bool} (hx : exec (.init c v) s = .next t) : MachineInvariant t := by
  obtain ⟨hidle, hx⟩ := whenIdle_eq_next hx
  cases hx
  exact h.moved rfl rfl hidle fun _ => ⟨BitVec.getLsbD_zero, fun _ => rfl⟩

/-- A RUN brings a buffer of exactly its capacity (R195). -/
theorem MachineInvariant.after_run {operands : RunOperands} (hlen : operands.buffer.length = operands.capacity.toNat)
    (hx : exec (.run operands) s = .next t) : MachineInvariant t := by
  obtain ⟨hidle, hwritten, rfl⟩ := execRun_eq_next hx
  exact machineInvariant_of_place (Memory.ofEntries_wf _) (by rw [Memory.addresses_ofEntries, hlen]) rfl ⟨hwritten, h.atPlace hidle⟩

theorem MachineInvariant.after_checksum {input : List Byte} (hx : exec (.checksum input) s = .next t) : MachineInvariant t := by
  obtain ⟨hidle, hx⟩ := whenIdle_eq_next hx
  cases hx
  exact h.moved rfl rfl hidle (h.atPlace hidle)

theorem MachineInvariant.after_hostOperation {ports : HostPorts} {i : Instr} (hd : decode (.op ports) = .instr i)
    (hx : exec i s = .next t) : MachineInvariant t := by
  rcases decodeOp_cases hd with ⟨c, v, rfl⟩ | ⟨cap, buffer, hlen, rfl⟩ | ⟨input, rfl⟩
  · exact h.after_init hx
  · exact h.after_run hlen hx
  · exact h.after_checksum hx

/-- The invariant does not read the host's side. -/
theorem MachineInvariant.hostSide (result : HostResult) (port : Option HostAction) (program : List HostAction) :
    MachineInvariant { s with result := result, port := port, program := program } :=
  h.moved rfl rfl rfl (h.atPlace rfl)

end

/-! ### The statements -/

/-- Settles O50: a step runs the micro-operation of its place or a host operation, or answers a host read. -/
theorem everyStepKeepsTheMachineInvariant : Obligations.EveryStepKeepsTheMachineInvariant := by
  intro s t h hstep
  rcases step_eq_next hstep with ⟨i, s', hf, hx⟩ | hq
  · obtain ⟨hs', hi⟩ := fetch_eq_instr hf
    have h' : MachineInvariant s' := by
      rw [hs']
      exact h.hostSide s.result s'.port s'.program
    rcases hi with hu | ⟨ports, hd⟩
    · exact h'.after_uop (by rw [hs']; exact hu) hx
    · exact h'.after_hostOperation hd hx
  · rw [fetch_eq_quiet hq]
    exact h.hostSide t.result t.port t.program

/-- Settles O49: power-on is idle, without a buffer and with previous code 0. -/
theorem powerOnMeetsTheMachineInvariant : Obligations.PowerOnMeetsTheMachineInvariant :=
  machineInvariant_of_place (u := .idle) Memory.wf_nil rfl rfl fun _ => ⟨rfl, fun _ => rfl⟩

end Sys2Proof.Machine
end

section
/-! What an instruction can do to each part of the state, over all instructions: who faults, who writes `OUT`, who touches the bus and its
trace, who writes which field of `S`. -/

namespace Sys2Proof.Machine

/-! ### Faults -/

theorem whenIdle_ne_fault {s : State} {k : Host.Outcome State Fault Refusal} {f : Fault} (hk : k ≠ .fault f) :
    whenIdle s k ≠ .fault f := by
  unfold whenIdle
  split
  · exact hk
  · nofun

/-- Only a write of an entry faults, and only without room (log entry 11). -/
theorem exec_eq_fault {i : Instr} {s : State} {f : Fault} (h : exec i s = .fault f) :
    (i = .emit ∨ i = .copy .codeToOut) ∧ ¬ s.W.count < s.capacity := by
  cases i with
  | init | checksum => exact absurd h (whenIdle_ne_fault nofun)
  | run =>
    refine absurd h (whenIdle_ne_fault ?_)
    split <;> nofun
  | emit =>
    refine ⟨.inl rfl, fun hroom => ?_⟩
    rw [exec_emit_of_room hroom] at h
    cases h
  | copy move =>
    cases move with
    | codeToOut =>
      refine ⟨.inr rfl, fun hroom => ?_⟩
      rw [exec, execCopy, writeOut_of_room hroom] at h
      cases h
    | codeToPrevious | zeroToPrevious => cases h
  | _ => cases h

/-- Settles O51: the sequencer selects EMIT at its place only, where there is room; the host cannot issue it. -/
theorem noStepFaultsUnderTheInvariant : Obligations.NoStepFaultsUnderTheInvariant := by
  intro s f hI h
  cases hf : fetch s with
  | quiet t =>
    rw [step_of_fetch_quiet hf] at h
    cases h
  | refused r =>
    rw [step_of_fetch_refused hf] at h
    cases h
  | instr i s' =>
    rw [step_of_fetched_instr hf] at h
    obtain ⟨hwrite, hfull⟩ := exec_eq_fault h
    obtain ⟨hs', hu | ⟨ports, hd⟩⟩ := fetch_eq_instr hf
    · have hplace : s.upc = .commitEmit := by
        cases hu' : s.upc <;> rw [hu'] at hu <;> cases hu <;> simp at hwrite
      rw [hs'] at hfull
      exact hfull (hI.atPlace hplace).2
    · rcases decodeOp_cases hd with ⟨c, v, rfl⟩ | ⟨cap, buffer, -, rfl⟩ | ⟨input, rfl⟩ <;> simp at hwrite

/-! ### Moves of the engine -/

/-- What an operation of the engine can do: of bank `S` it writes the status at most; it writes `W` and the answer line, it uses the bus,
adding its events to the trace, and it goes to a place.  `OUT`, the capacity and the host's side stay. -/
def EngineMove (s t : State) : Prop :=
  ∃ status w a bus' events u,
    t = { s with S := { s.S with status := status }, W := w, ans := a, bus := bus', trace := s.trace ++ events, upc := u }

/-- A move without a primitive. -/
theorem EngineMove.of_registers {s t : State} {status : Status} {w : Working} {u : MicroPc}
    (h : t = { s with S := { s.S with status := status }, W := w, upc := u }) : EngineMove s t :=
  ⟨status, w, s.ans, s.bus, [], u, by rw [h, List.append_nil]⟩

theorem EngineMove.refl (s : State) : EngineMove s s := .of_registers rfl

theorem EngineMove.trans {s t v : State} (hst : EngineMove s t) (htv : EngineMove t v) : EngineMove s v := by
  obtain ⟨_, _, _, _, events, _, rfl⟩ := hst
  obtain ⟨status, w, a, bus', events', u, rfl⟩ := htv
  exact ⟨status, w, a, bus', events ++ events', u, by rw [List.append_assoc]⟩

theorem EngineMove.whenAt {s t : State} {u : MicroPc} {f : State → State} (h : EngineMove s t)
    (hf : ∀ x, EngineMove x (f x)) : EngineMove s (whenAt u f t) := by
  unfold Machine.whenAt
  split
  · exact h.trans (hf t)
  · exact h

theorem EngineMove.out_eq {s t : State} (h : EngineMove s t) : t.out = s.out := by
  obtain ⟨_, _, _, _, _, _, rfl⟩ := h
  rfl

theorem EngineMove.trace_grows {s t : State} (h : EngineMove s t) : ∃ events, t.trace = s.trace ++ events := by
  obtain ⟨_, _, _, _, events, _, rfl⟩ := h
  exact ⟨events, rfl⟩

/-! ### The engine's operations are moves -/

/-- A primitive that returns or waits (R52, R62). -/
theorem primitive_eq (q : BusPrim) (s : State) :
    ∃ a bus' events, primitive q s = { s with ans := a, bus := bus', trace := s.trace ++ events } := by
  cases h : issue q s with
  | none => exact ⟨s.ans, s.bus, [], by simp [primitive, h]⟩
  | some s' =>
    obtain ⟨a, bus', -, rfl⟩ := issue_eq_some h
    exact ⟨_, _, _, by rw [primitive, h]; rfl⟩

theorem execTxCmd_eq_next {s t : State} (h : execTxCmd s = .next t) :
    ∃ bus' events u, t = { s with bus := bus', trace := s.trace ++ events, upc := u } := by
  cases hissue : s.bus.issue (.writeCommand s.S.command) with
  | none =>
    rw [execTxCmd_of_stuck hissue] at h
    cases h
    exact ⟨_, [], _, by rw [List.append_nil]; rfl⟩
  | some r =>
    cases (exec_txCmd_of_returns hissue).symm.trans h
    exact ⟨_, _, _, rfl⟩

theorem writeBackOp_eq (s : State) :
    ∃ bus' events u, writeBackOp s = { s with bus := bus', trace := s.trace ++ events, upc := u } := by
  cases hissue : s.bus.issue (.writeBit s.W.r) with
  | none =>
    rw [writeBackOp_of_stuck hissue]
    exact ⟨_, [], _, by rw [List.append_nil]; rfl⟩
  | some r => exact ⟨_, _, _, Host.Outcome.next.inj (exec_writeBack_of_returns hissue)⟩

/-- CLASSIFY touches the status only by a failure (R122 to R125). -/
theorem classifyOp_eq (s : State) :
    ∃ status w u, classifyOp s = { s with S := { s.S with status := status }, W := w, upc := u } := by
  unfold classifyOp
  cases pairClass s.W.p s.W.n with
  | fork =>
    obtain ⟨w, hw⟩ := pairForkOp_resolves s
    exact ⟨_, w, _, hw⟩
  | zero | one => exact ⟨_, _, _, rfl⟩
  | fail => exact ⟨_, _, _, raiseFailedOp_eq ..⟩

theorem engineMove_primitive (q : BusPrim) (s : State) : EngineMove s (primitive q s) := by
  obtain ⟨_, _, _, h⟩ := primitive_eq q s
  exact ⟨_, _, _, _, _, _, h⟩

theorem engineMove_execTxCmd {s t : State} (h : execTxCmd s = .next t) : EngineMove s t := by
  obtain ⟨_, _, _, rfl⟩ := execTxCmd_eq_next h
  exact ⟨_, _, _, _, _, _, rfl⟩

theorem engineMove_txBeginOp (s : State) : EngineMove s (txBeginOp s) := by
  cases hissue : s.bus.issue .reset with
  | none =>
    rw [txBeginOp_of_stuck hissue]
    exact .of_registers rfl
  | some r =>
    have h := Host.Outcome.next.inj (exec_txBegin_of_returns hissue)
    rw [h]
    cases r.1 <;> exact ⟨_, _, _, _, _, _, rfl⟩

theorem engineMove_readPairOp (s : State) : EngineMove s (readPairOp s) := by
  obtain ⟨p, n, a, bus', events, u, h, -⟩ := exec_readPair_eq_next (s := s) rfl
  exact ⟨_, _, _, _, _, _, h⟩

theorem engineMove_classifyOp (s : State) : EngineMove s (classifyOp s) := by
  obtain ⟨_, _, _, h⟩ := classifyOp_eq s
  exact .of_registers h

theorem engineMove_writeBackOp (s : State) : EngineMove s (writeBackOp s) := by
  obtain ⟨_, _, _, h⟩ := writeBackOp_eq s
  exact ⟨_, _, _, _, _, _, h⟩

/-- A bit round is made of moves (R120). -/
theorem engineMove_bitRoundOp (s : State) : EngineMove s (bitRoundOp s) := by
  have hstart : EngineMove s (if s.upc.phase = .RD_N ∨ s.upc.phase = .RESOLVE ∨ s.upc.phase = .WR_BIT then s
      else s.goto .rdP) := by
    split
    · exact .refl s
    · exact .of_registers rfl
  have hread (x : State) (hx : EngineMove s x) : EngineMove s (if x.upc = .rdP ∨ x.upc = .rdN then readPairOp x else x) := by
    split
    · exact hx.trans (engineMove_readPairOp x)
    · exact hx
  exact (((((hread _ hstart).whenAt engineMove_classifyOp).whenAt engineMove_writeBackOp).whenAt
    fun _ => .of_registers rfl).whenAt fun _ => .of_registers rfl)

/-- The rows that issue bus primitives: the primitives themselves, the places of the sequencer that issue them, and the bit round that is
made of such places (R50). -/
def issuesPrimitives : Instr → Bool
  | .busReset | .busWriteCommand _ | .busWriteBit _ | .busReadBit => true
  | .txBegin | .txCmd | .readPair | .writeBack | .bitRound => true
  | _ => false

theorem engineMove_of_issuing {i : Instr} {s t : State} (h : exec i s = .next t) (hi : issuesPrimitives i = true) :
    EngineMove s t := by
  cases i with
  | busReset | busWriteCommand | busWriteBit | busReadBit => cases h; exact engineMove_primitive _ s
  | txBegin => cases h; exact engineMove_txBeginOp s
  | txCmd => exact engineMove_execTxCmd h
  | readPair => cases h; exact engineMove_readPairOp s
  | writeBack => cases h; exact engineMove_writeBackOp s
  | bitRound =>
    have ht : bitRoundOp s = t := Host.Outcome.next.inj h
    exact ht ▸ engineMove_bitRoundOp s
  | _ => cases hi

/-! ### The bank `S` -/

/-- Everything an instruction can do to bank `S`, and which can do it (R11, R12, R20 to R23). -/
inductive WritesS (i : Instr) (S : SearchState) : SearchState → Prop
  | init {c : Byte} {v : Bool} (h : i = .init c v) (S' : SearchState) : WritesS i S S'
  | nothing : WritesS i S S
  | previousCode (h : i = .commit ∨ i = .copy .codeToPrevious ∨ i = .copy .zeroToPrevious) (v : RomCode) :
      WritesS i S { S with previousCode := v }
  | previousForkPosition (h : i = .saveFork) (p : Fin 65) : WritesS i S { S with previousForkPosition := p }
  | isFirstTransaction (h : i = .exit) (flag : Bool) : WritesS i S { S with isFirstTransaction := flag }
  | status
      (h : i = .doneTest ∨ i = .txBegin ∨ i = .classify ∨ i = .bitRound ∨ i = .pairFail ∨ ∃ c, i = .raiseFailed c)
      (status : Status) : WritesS i S { S with status := status }

theorem WritesS.of_eq {i : Instr} {S S' : SearchState} (h : S' = S) : WritesS i S S' := h ▸ .nothing

theorem EngineMove.writesS {i : Instr} {s t : State} (hmove : EngineMove s t)
    (h : i = .doneTest ∨ i = .txBegin ∨ i = .classify ∨ i = .bitRound ∨ i = .pairFail ∨ ∃ c, i = .raiseFailed c) :
    WritesS i s.S t.S := by
  obtain ⟨status, _, _, _, _, _, rfl⟩ := hmove
  exact .status h status

theorem pairForkOp_S (s : State) : (pairForkOp s).S = s.S := by
  obtain ⟨w, hw⟩ := pairForkOp_resolves s
  rw [hw]
  rfl

theorem primitive_S (q : BusPrim) (s : State) : (primitive q s).S = s.S := by
  obtain ⟨_, _, _, h⟩ := primitive_eq q s
  rw [h]

theorem exec_writesS {i : Instr} {s t : State} (h : exec i s = .next t) : WritesS i s.S t.S := by
  cases i with
  | init c v => exact .init rfl _
  | run => exact .of_eq (exec_run_S h)
  | checksum => exact .of_eq (exec_checksum_S h)
  | busReset | busWriteCommand | busWriteBit | busReadBit => cases h; exact .of_eq (primitive_S _ s)
  | pairFork => cases h; exact .of_eq (pairForkOp_S s)
  | pairZero | pairOne | forkExhausted | forkNewBarred | forkNewBeyond => cases h; exact .nothing
  | forkReplay =>
    cases h
    unfold forkReplayOp
    split <;> exact .nothing
  | statusTest => exact .of_eq (exec_statusTest_S h)
  | loopTest => cases h; split <;> exact .nothing
  | txCmd =>
    obtain ⟨_, _, _, rfl⟩ := execTxCmd_eq_next h
    exact .nothing
  | readPair =>
    obtain ⟨_, _, _, _, _, _, rfl, -⟩ := exec_readPair_eq_next h
    exact .nothing
  | writeBack =>
    cases h
    obtain ⟨_, _, _, hw⟩ := writeBackOp_eq s
    exact .of_eq (by rw [hw])
  | store | advance => cases h; exact .nothing
  | crcFilter => cases h; split <;> exact .nothing
  | emit =>
    obtain ⟨-, rfl⟩ := exec_emit_eq_next h
    exact .nothing
  | commit => cases h; exact .previousCode (.inl rfl) _
  | saveFork => cases h; exact .previousForkPosition rfl _
  | exit => cases h; exact .isFirstTransaction rfl _
  | doneTest =>
    cases h
    split
    · exact .nothing
    · exact .status (.inl rfl) _
  | txBegin | bitRound => exact (engineMove_of_issuing h rfl).writesS (by simp)
  | classify => cases h; exact (engineMove_classifyOp s).writesS (by simp)
  | pairFail | raiseFailed => cases h; exact .status (by simp) _
  | getBit | setBit | map | crc8 => cases h; exact .nothing
  | copy move =>
    cases move with
    | codeToPrevious | zeroToPrevious => cases h; exact .previousCode (by simp) _
    | codeToOut =>
      obtain ⟨-, rfl⟩ := writeOut_eq_next h
      exact .nothing

/-- Settles O52: an instruction writes the fields of `WritesS` alone. -/
theorem fieldsOfSHaveTheirWritersOnly : Obligations.FieldsOfSHaveTheirWritersOnly := by
  intro i s t h
  have hw := exec_writesS h
  generalize t.S = S' at hw
  cases hw with
  | init hi => exact ⟨fun _ => ⟨_, _, hi⟩, fun _ => .inl ⟨_, _, hi⟩, fun _ => .inl ⟨_, _, hi⟩, fun _ => .inl ⟨_, _, hi⟩,
      fun _ => .inl ⟨_, _, hi⟩⟩
  | nothing => simp
  | previousCode hi => simpa using fun _ => .inr hi
  | previousForkPosition hi => simp [hi]
  | isFirstTransaction hi => simp [hi]
  | status hi => simpa using fun _ => .inr hi

/-! ### The output buffer -/

/-- Every instruction but a RUN's acceptance, EMIT and the copy to `OUT` leaves `OUT` as it is (R43, R46). -/
theorem exec_out {i : Instr} {s t : State} (h : exec i s = .next t) (hrun : ∀ operands, i ≠ .run operands) (hemit : i ≠ .emit)
    (hcopy : i ≠ .copy .codeToOut) : t.out = s.out := by
  cases i with
  | run operands => exact absurd rfl (hrun operands)
  | emit => exact absurd rfl hemit
  | copy move =>
    cases move with
    | codeToOut => exact absurd rfl hcopy
    | codeToPrevious | zeroToPrevious => cases h; rfl
  | init | checksum =>
    obtain ⟨-, h⟩ := whenIdle_eq_next h
    cases h
    rfl
  | busReset | busWriteCommand | busWriteBit | busReadBit | txBegin | txCmd | readPair | writeBack | bitRound =>
    exact (engineMove_of_issuing h rfl).out_eq
  | pairFork =>
    cases h
    obtain ⟨w, hw⟩ := pairForkOp_resolves s
    rw [hw]
    rfl
  | pairZero | pairOne | pairFail | forkExhausted | forkNewBarred | forkNewBeyond => cases h; rfl
  | forkReplay =>
    cases h
    unfold forkReplayOp
    split <;> rfl
  | statusTest | loopTest | crcFilter | doneTest => cases h; split <;> rfl
  | classify => cases h; exact (engineMove_classifyOp s).out_eq
  | store | advance | commit | saveFork | exit | raiseFailed => cases h; rfl
  | getBit | setBit | map | crc8 => cases h; rfl

/-- The bytes outside entry `idx` read as before a write of the entry (R42). -/
theorem Memory.read_writeEntry_outside (m : Memory) (idx : BitVec 16) (v : RomCode) {a : Nat}
    (h : a < 8 * idx.toNat ∨ 8 * idx.toNat + 8 ≤ a) : (m.writeEntry idx v).read a = m.read a :=
  Memory.read_writeBytes_outside _ _ _ h

/-- Settles O53: an emission and its copy write one entry below the capacity, a RUN brings its buffer, and the others leave `OUT`. -/
theorem outIsWrittenByEmissionOnly : Obligations.OutIsWrittenByEmissionOnly := by
  intro i s t h
  refine ⟨?_, fun hemit hcopy hrun => exec_out h hrun hemit hcopy, ?_⟩
  · rintro operands rfl
    obtain ⟨-, -, rfl⟩ := execRun_eq_next h
    rfl
  · rintro (rfl | rfl)
    · obtain ⟨hroom, rfl⟩ := exec_emit_eq_next h
      exact ⟨hroom, fun a => Memory.read_writeEntry_outside _ _ _⟩
    · obtain ⟨hroom, rfl⟩ := writeOut_eq_next h
      exact ⟨hroom, fun a => Memory.read_writeEntry_outside _ _ _⟩

/-! ### The bus and its trace -/

/-- A row that issues no primitive leaves the trace and the bus alone. -/
theorem exec_bus_of_not_issuing {i : Instr} {s t : State} (h : exec i s = .next t) (hi : issuesPrimitives i = false) :
    t.trace = s.trace ∧ t.bus = s.bus := by
  cases i with
  | busReset | busWriteCommand | busWriteBit | busReadBit | txBegin | txCmd | readPair | writeBack | bitRound => cases hi
  | init | checksum =>
    obtain ⟨-, h⟩ := whenIdle_eq_next h
    cases h
    exact ⟨rfl, rfl⟩
  | run =>
    obtain ⟨-, -, rfl⟩ := execRun_eq_next h
    exact ⟨rfl, rfl⟩
  | pairFork =>
    cases h
    obtain ⟨w, hw⟩ := pairForkOp_resolves s
    rw [hw]
    exact ⟨rfl, rfl⟩
  | classify =>
    cases h
    obtain ⟨_, _, _, hc⟩ := classifyOp_eq s
    rw [hc]
    exact ⟨rfl, rfl⟩
  | forkReplay =>
    cases h
    unfold forkReplayOp
    split <;> exact ⟨rfl, rfl⟩
  | pairZero | pairOne | pairFail | forkExhausted | forkNewBarred | forkNewBeyond => cases h; exact ⟨rfl, rfl⟩
  | statusTest | loopTest | crcFilter | doneTest => cases h; split <;> exact ⟨rfl, rfl⟩
  | emit =>
    obtain ⟨-, rfl⟩ := exec_emit_eq_next h
    exact ⟨rfl, rfl⟩
  | copy move =>
    cases move with
    | codeToPrevious | zeroToPrevious => cases h; exact ⟨rfl, rfl⟩
    | codeToOut =>
      obtain ⟨-, rfl⟩ := writeOut_eq_next h
      exact ⟨rfl, rfl⟩
  | store | advance | commit | saveFork | exit | raiseFailed => cases h; exact ⟨rfl, rfl⟩
  | getBit | setBit | map | crc8 => cases h; exact ⟨rfl, rfl⟩

theorem issuesPrimitives_cases {i : Instr} (hi : issuesPrimitives i = true) :
    i = .busReset ∨ (∃ c, i = .busWriteCommand c) ∨ (∃ b, i = .busWriteBit b) ∨ i = .busReadBit ∨ i = .txBegin ∨
      i = .txCmd ∨ i = .readPair ∨ i = .writeBack ∨ i = .bitRound := by
  cases i <;> simp [issuesPrimitives] at hi ⊢

/-- Settles O54: the rows that issue primitives add events, and the others touch neither the trace nor the bus. -/
theorem busEventsComeFromBusRowsOnly : Obligations.BusEventsComeFromBusRowsOnly := by
  intro i s t h
  cases hi : issuesPrimitives i with
  | true => exact ⟨(engineMove_of_issuing h hi).trace_grows, fun _ => issuesPrimitives_cases hi⟩
  | false =>
    obtain ⟨htrace, hbus⟩ := exec_bus_of_not_issuing h hi
    refine ⟨⟨[], by rw [htrace, List.append_nil]⟩, fun hchanged => ?_⟩
    rcases hchanged with hchanged | hchanged
    · exact absurd htrace hchanged
    · exact absurd hbus hchanged

end Sys2Proof.Machine
end

section
/-! The statements of the step and of the host's side: the fetched instruction (R30), a host read (R17), a RUN's acceptance (R39, R73), a
RUN right after INIT (R93), and power-on (R185). -/

namespace Sys2Proof.Machine

/-- Settles O5: the fetch, source by source (R30, log entries 1 and 7). -/
theorem stepRunsTheFetchedInstruction : Obligations.StepRunsTheFetchedInstruction := by
  refine fun s => ⟨fun ports i => step_of_port_decoded, fun hp => ⟨fun pr hpr hu => ?_, fun hidle =>
    ⟨fun ports rest i hq => step_of_program_decoded hp hidle hq, fun hq => step_of_fetch_quiet (fetch_of_nothing hp hidle hq)⟩⟩⟩
  have huop : pr.1.uop = some pr.2 := by
    clear hu
    revert pr
    decide
  exact step_of_uop hp (by rw [hu, huop])

/-! ### A host read -/

theorem step_of_port_readField {s : State} {f : SField} (hp : s.port = some (.readField f)) (hidle : s.upc = .idle) :
    step s = .next { s with port := none, result := .field (s.S.readField f) } := by
  have hf : fetch s = accept (.readField f) { s with port := none } := fetch_of_port hp
  rw [accept, if_pos hidle] at hf
  exact step_of_fetch_quiet hf

theorem step_of_port_readField_of_busy {s : State} {f : SField} (hp : s.port = some (.readField f)) (hbusy : s.upc ≠ .idle) :
    step s = .refused .operationInProgress := by
  have hf : fetch s = accept (.readField f) { s with port := none } := fetch_of_port hp
  rw [accept, if_neg hbusy] at hf
  exact step_of_fetch_refused hf

/-- The register code of a fork position is the position (R77). -/
theorem forkPositionCode_toNat (p : Fin 65) : (forkPositionCode p).toNat = p.val := by
  have := p.isLt
  rw [forkPositionCode, BitVec.toNat_ofNat]
  omega

/-- A register code of at most 64 bits is not cut by the zero-extension. -/
theorem zeroExtend_toNat {n : Nat} (hn : n ≤ 64) (v : BitVec n) : (v.zeroExtend 64).toNat = v.toNat :=
  BitVec.toNat_setWidth_of_le hn

/-- Settles O7: an idle block gives the field's register code, whatever the field, and a busy one refuses (R17). -/
theorem hostReadsSWhenIdle : Obligations.HostReadsSWhenIdle := by
  refine fun s f hp => ⟨fun hidle => ⟨_, step_of_port_readField hp hidle, ?_, ?_, ?_, ?_, ?_, ?_⟩,
    step_of_port_readField_of_busy hp⟩ <;> rintro rfl
  · rfl
  · exact (zeroExtend_toNat (by decide) _).trans (forkPositionCode_toNat _)
  · exact zeroExtend_toNat (by decide) _
  · refine (zeroExtend_toNat (by decide) _).trans ?_
    cases s.S.status <;> rfl
  · exact (zeroExtend_toNat (by decide) _).trans (BitVec.toNat_ofBool _)
  · exact (zeroExtend_toNat (by decide) _).trans (BitVec.toNat_ofBool _)

/-! ### RUN -/

/-- Settles O10: the buffer given stands in `OUT` byte for byte, with nothing beyond it (R39, R42). -/
theorem runIsAccepted : Obligations.RunIsAccepted := fun _ buffer _ hu hw =>
  ⟨_, execRun_of_accepted hu hw _, rfl, fun j k hj hk => Memory.read_ofEntries buffer j k hj hk,
    fun a ha => Memory.read_ofEntries_beyond buffer a ha⟩

/-- The waiting host's INIT on an idle block. -/
theorem step_of_program_init {s : State} {c : Byte} {v : Bool} {rest : List HostAction} (hp : s.port = none) (hu : s.upc = .idle)
    (hq : s.program = hostInit c v :: rest) :
    step s = .next { s with S := SearchState.initial c v, written := true, result := .nothing, program := rest } :=
  (step_of_program_decoded hp hu hq (decode_op_init rfl)).trans (exec_init_of_idle (s := { s with program := rest }) hu c v)

/-- The waiting host's RUN on an idle, initialised block, with a buffer of at least its capacity (R187). -/
theorem step_of_program_run {s : State} {cap : BitVec 16} {buffer : List RomCode} {rest : List HostAction} (hp : s.port = none)
    (hu : s.upc = .idle) (hw : s.written = true) (hfits : cap.toNat ≤ buffer.length) (hq : s.program = hostRun cap buffer :: rest) :
    step s = .next { s with
      upc := .check
      capacity := cap
      out := Memory.ofEntries (buffer.take cap.toNat)
      result := .nothing
      program := rest } :=
  (step_of_program_decoded hp hu hq (decode_op_run rfl hfits)).trans
    (execRun_of_accepted (s := { s with program := rest }) hu hw ⟨cap, buffer.take cap.toNat⟩)

/-- Settles O9: INIT and the RUN come from the waiting host, and with capacity 0 the RUN goes from the status test over the loop test to
the exit (R93, R102). -/
theorem initThenRunWithCapacityZero : Obligations.InitThenRunWithCapacityZero := by
  intro command verify buffer rest s hu hp hq
  refine (runSteps_succ (step_of_program_init hp hu hq) 4).trans ?_
  refine (runSteps_succ (step_of_program_run (by exact hp) (by exact hu) rfl (Nat.zero_le _) rfl) 3).trans ?_
  refine runSteps_of_uop hp rfl (exec_statusTest_of_more rfl) <|
    runSteps_of_uop hp rfl (exec_loopTest_of_full (Nat.not_lt_zero _)) <| runSteps_of_uop hp rfl (exec_exit _) ?_
  rw [hu]
  rfl

/-! ### Power-on -/

/-- Settles O48: the reset state by its fields, and the two host operations on it (R185, R36). -/
theorem powerOnIsIdleAndUnwritten : Obligations.PowerOnIsIdleAndUnwritten :=
  ⟨rfl, rfl, rfl, rfl, exec_run_of_unwritten rfl rfl, fun input => ⟨_, exec_checksum_of_idle rfl input, rfl⟩⟩

end Sys2Proof.Machine
end

section
/-! The statements on single rows: the commit's filter, emission and the copies of a code (R110 to R112, R143), the rows of a bit round
(R123, R129, R132), the bus primitives (R53 to R55), the accessors and MAP (R140, R141, R151). -/

namespace Sys2Proof.Machine

/-! ### The commit -/

/-- Settles O18: both sides of the filter (R112, R154). -/
theorem filterPassesOnZeroChecksum : Obligations.FilterPassesOnZeroChecksum := fun _ =>
  ⟨exec_crcFilter_of_unverified, fun hv => ⟨_, exec_crcFilter_of_verified hv, rfl, rfl⟩⟩

theorem romBytes_getElem (v : RomCode) {j : Nat} (hj : j < 8) : (romBytes v)[j]'hj = v.extractLsb' (8 * j) 8 := by
  match j, hj with
  | 0, _ | 1, _ | 2, _ | 3, _ | 4, _ | 5, _ | 6, _ | 7, _ => rfl

/-- The entry written reads as the code's bytes, byte 0 lowest (R42). -/
theorem Memory.read_writeEntry_inside (m : Memory) (idx : BitVec 16) (v : RomCode) {j : Nat} (hj : j < 8) :
    (m.writeEntry idx v).read (8 * idx.toNat + j) = some (v.extractLsb' (8 * j) 8) := by
  rw [← romBytes_getElem v hj]
  exact Memory.read_writeBytes_inside _ _ _ _ hj

/-- Settles O19: one entry written, and the count up by one below the capacity, so without wrapping (R111). -/
theorem emitWritesOneEntry : Obligations.EmitWritesOneEntry := by
  intro s hroom
  have hroom' : s.W.count < s.capacity := hroom
  exact ⟨_, exec_emit_of_room hroom', fun j hj => Memory.read_writeEntry_inside _ _ _ hj,
    fun a ha => Memory.read_writeEntry_outside _ _ _ ha, by bv_omega, rfl⟩

/-- Settles O20: the decoder refuses the short buffer, and the two writes of an entry fault without room (R195). -/
theorem entryBeyondCapacityFaults : Obligations.EntryBeyondCapacityFaults := by
  refine ⟨fun h hop hshort => ?_, fun s hfull => ?_⟩
  · rw [decode, decodeOp, if_neg (by simp [hop]), if_pos hop, if_neg (Nat.not_le.mpr hshort)]
  · have hnot : ¬ s.W.count < s.capacity := Nat.not_lt.mpr hfull
    exact ⟨exec_emit_of_full hnot, by rw [exec, execCopy, writeOut, if_neg hnot]⟩

/-- Settles O41: the three moves of a whole code (R143). -/
theorem copyMovesWholeCodes : Obligations.CopyMovesWholeCodes := fun _ =>
  ⟨rfl, rfl, fun hroom => ⟨_, writeOut_of_room hroom, fun _ hj => Memory.read_writeEntry_inside _ _ _ hj,
    fun _ ha => Memory.read_writeEntry_outside _ _ _ ha, rfl⟩⟩

/-! ### The bit round -/

/-- Settles O26: the class of a pair of different bits adopts its first bit; the two rows set their constants (R123, R75). -/
theorem agreedBitIsAdopted : Obligations.AgreedBitIsAdopted := by
  refine fun s => ⟨fun hpn => ?_, rfl, rfl⟩
  rw [exec_classify_eq_row]
  cases hp : s.W.p <;> cases hn : s.W.n
  · exact absurd (hp.trans hn.symm) hpn
  · rfl
  · rfl
  · exact absurd (hp.trans hn.symm) hpn

/-- Settles O34: the write-back of a bus that returns (R129). -/
theorem writeBackDrivesTheResolvedBit : Obligations.WriteBackDrivesTheResolvedBit := fun _ _ _ => exec_writeBack_of_returns

/-- With previous code 0 and the sentinel a fork is new, or it replays a 0 of the code: one effect, whatever the first flag (R132). -/
theorem pairForkOp_of_sentinel {s : State} (hcode : s.S.previousCode = 0) (hpos : s.S.previousForkPosition = 64)
    (hi : s.W.i.toNat < 64) : pairForkOp s = forkNewOp s := by
  rw [pairForkOp_eq_resolved hi, recordsFork_of_fork, guidedBy_of_sentinel hcode hpos s.W.count 0 _ hi]
  rfl

/-- Settles O33: the fork's one effect is the same for either value of the flag, which it does not change (R132). -/
theorem firstFlagIsRedundantBeforeAnyFork : Obligations.FirstFlagIsRedundantBeforeAnyFork := by
  intro s flag hcode hpos hi
  refine ⟨forkNewOp s, congrArg Host.Outcome.next (pairForkOp_of_sentinel hcode hpos hi), rfl, rfl, Working.index_toNat hi, ?_⟩
  exact congrArg Host.Outcome.next (pairForkOp_of_sentinel (s := { s with S := { s.S with isFirstTransaction := flag } }) hcode hpos hi)

/-! ### Bus primitives -/

theorem primitive_of_returns {q : BusPrim} {s : State} {a : Bool} {bus' : BusEnv} (h : s.bus.issue q = some (a, bus')) :
    primitive q s = { s with bus := bus', trace := s.trace ++ [q.event a], ans := if q.answers then a else s.ans } := by
  rw [primitive, issue_of_returns h]
  rfl

/-- Settles O38: a primitive that returns, for each of the four (R53 to R55, R64). -/
theorem busPrimitivesCompleteWithOneEvent : Obligations.BusPrimitivesCompleteWithOneEvent := fun _ _ _ =>
  ⟨fun h => congrArg Host.Outcome.next (primitive_of_returns h), fun _ h => congrArg Host.Outcome.next (primitive_of_returns h),
    fun _ h => congrArg Host.Outcome.next (primitive_of_returns h), fun h => congrArg Host.Outcome.next (primitive_of_returns h)⟩

/-! ### Accessors and MAP -/

/-- Settles O40: the bit read, and SETBIT's result bit by bit (R140, R141). -/
theorem getBitAndSetBitAreExact : Obligations.GetBitAndSetBitAreExact := by
  refine fun v i b s => ⟨⟨_, rfl, ?_, rfl⟩, _, rfl, fun j hj => getLsbD_romSetBit v i b hj, rfl⟩
  show (BitVec.ofBool (v.getLsbD i.toNat)).zeroExtend 64 = if v.getLsbD i.toNat = true then 1 else 0
  cases v.getLsbD i.toNat <;> rfl

/-- Settles O42: MAP on 0, on the eight single bits, and on a sum (R151). -/
theorem mapXorsTheConstants : Obligations.MapXorsTheConstants :=
  ⟨fun x _ => ⟨_, rfl, zeroExtend_toNat (by decide) (crcMap x), rfl⟩, by decide, by decide, by decide, by decide, by decide,
    by decide, by decide, by decide, by decide, crcMap_xor⟩

end Sys2Proof.Machine
end
